-- ==== Sys2Proof/Word.lean ====
section
/-! DEFINITION. The structural constants of spec/00_scope.md R9 (R14), the fixed-width values of the
block (R15, R16) and the two fixed-length arrays its registers and operands come in: six tube
positions, five decimal points. -/

namespace Sys2Proof

/-! ## Structural constants (R9, R14) -/

/-- NPOS: tube positions. -/
@[simp] abbrev nPos : Nat := 6

/-- NDIG: digit values 0..9. -/
abbrev nDig : Nat := 10

/-- NDP: decimal points 0..4. -/
@[simp] abbrev nDp : Nat := 5

/-- NCHIP: driver chips. -/
abbrev nChip : Nat := 2

/-- WORD: bits of a chip word. -/
abbrev wordBits : Nat := 32

/-! ## Values -/

/-- A 64-bit command word (R80). -/
abbrev Command := BitVec 64

/-- A driver chip's word (R9). -/
abbrev Word := BitVec wordBits

/-- A digit value, UInt4: 0..9 a digit, 10..15 blank (R32, R88). -/
abbrev Digit := BitVec 4

/-- A crossfade animation step, UInt5 (R34). -/
abbrev AnimStep := BitVec 5

/-- A pin number, UInt8 (R61). -/
abbrev Pin := BitVec 8

/-- One value for each of the six tube positions 0..5, in array order (NPOS of them). -/
structure Six (α : Type) where
  p0 : α
  p1 : α
  p2 : α
  p3 : α
  p4 : α
  p5 : α
deriving DecidableEq, Repr

/-- One value for each of the five decimal points 0..4 (NDP of them; R33). -/
structure Five (α : Type) where
  p0 : α
  p1 : α
  p2 : α
  p3 : α
  p4 : α
deriving DecidableEq, Repr

namespace Six

/-- The same value at every position. -/
def fill {α : Type} (x : α) : Six α := ⟨x, x, x, x, x, x⟩

/-- The element at position `i`. -/
def get {α : Type} (v : Six α) : Fin nPos → α
  | 0 => v.p0
  | 1 => v.p1
  | 2 => v.p2
  | 3 => v.p3
  | 4 => v.p4
  | 5 => v.p5

def map {α β : Type} (f : α → β) (v : Six α) : Six β :=
  ⟨f v.p0, f v.p1, f v.p2, f v.p3, f v.p4, f v.p5⟩

/-- Position by position, from three arrays. -/
def zipWith3 {α β γ δ : Type} (f : α → β → γ → δ) (u : Six α) (v : Six β) (w : Six γ) : Six δ :=
  ⟨f u.p0 v.p0 w.p0, f u.p1 v.p1 w.p1, f u.p2 v.p2 w.p2,
   f u.p3 v.p3 w.p3, f u.p4 v.p4 w.p4, f u.p5 v.p5 w.p5⟩

/-- The elements with their positions, in the order 0..5. -/
def indexed {α : Type} (v : Six α) : List (Nat × α) :=
  [(0, v.p0), (1, v.p1), (2, v.p2), (3, v.p3), (4, v.p4), (5, v.p5)]

end Six

namespace Five

/-- The same value at every position. -/
def fill {α : Type} (x : α) : Five α := ⟨x, x, x, x, x⟩

/-- The element at position `j`. -/
def get {α : Type} (v : Five α) : Fin nDp → α
  | 0 => v.p0
  | 1 => v.p1
  | 2 => v.p2
  | 3 => v.p3
  | 4 => v.p4

/-- The elements with their positions, in the order 0..4. -/
def indexed {α : Type} (v : Five α) : List (Nat × α) :=
  [(0, v.p0), (1, v.p1), (2, v.p2), (3, v.p3), (4, v.p4)]

end Five

end Sys2Proof
end

