-- ==== Sys2Proof/Config.lean ====
section
/-! DEFINITION. The named constants of spec/00_scope.md R9 and R10 (the rest of R9 stands in
Word.lean) and the parameters of R11 (one record, carried in State as `cfg`; the lux law alone is a
free function). -/

namespace Sys2Proof

/-! ## Constants (R9, R10, R14)

The structural constants of R9 that types are built from stand in Word.lean. -/

/-- BLANK_MIN: a digit value of at least this is blank. -/
abbrev blankMin : Nat := 10

/-- CHIP0_BASE: the pin number of chip 0's bit 0. -/
abbrev chip0Base : Nat := 1

/-- CHIP1_BASE: the pin number of chip 1's bit 0. -/
abbrev chip1Base : Nat := 101

/-- T_SKIP_OLD: ShowOld is skipped when showOld is below this. -/
abbrev tSkipOld : Nat := 1000

/-- T_SKIP_BLANK: Blank is skipped when blankTime is below this. -/
abbrev tSkipBlank : Nat := 500

/-- T_FLOOR: every duration passed to the timer is at least this. -/
abbrev tFloor : Nat := 500

/-! ## Parameters (R11) -/

/-- BIT_ORDER: which end of a word the Serial Link sends first (R182). -/
inductive BitOrder where
  | msbFirst
  | lsbFirst
deriving DecidableEq, Repr

/-- The parameters of R11 that are data. TICK and T_HOLD are not modelled (R11, D28). -/
structure Config where
  /-- REFRESH_PERIOD, ticks. -/
  refreshPeriod : Nat
  /-- MAXBRIGHTNESS. -/
  maxBrightness : Nat
  /-- PWM_MIN, ticks. -/
  pwmMin : Nat
  /-- T_VIS, ticks. -/
  tVis : Nat
  /-- ANIM_N. -/
  animN : Nat
  /-- TIMER_MAX, ticks. -/
  timerMax : Nat
  /-- BIT_ORDER. -/
  bitOrder : BitOrder
deriving DecidableEq, Repr

namespace Config

/-- Every constraint of R11 holds (R12, D34). -/
def wf (c : Config) : Bool :=
  c.pwmMin ≤ c.refreshPeriod && c.refreshPeriod ≤ c.timerMax && tFloor ≤ c.timerMax &&
  1 ≤ c.maxBrightness && 1 ≤ c.animN && c.animN ≤ 31

/-- LUX_TO_B: the source gives no law (N5), so it is a free total function (R11, D30).
Log entry 2. -/
opaque luxToB : BitVec 32 → Nat

/-- Parameter set PA of spec/95_test_vectors.md section 1.
DESIGN CHOICE, unsafe (log entry 1): the source gives no values; only `State.reset` and
`decodeTableWord`, which take no configuration, use this one. -/
def testSet : Config where
  refreshPeriod := 10000
  maxBrightness := 100
  pwmMin := 600
  tVis := 500
  animN := 10
  timerMax := 65535
  bitOrder := .msbFirst

end Config

end Sys2Proof
end

