-- ==== Sys2Proof/Syntax.lean ====
section
/-! DEFINITION. The six operations of spec/opcode_table.json with the operands their command words
carry (spec/30_encoding.md R81 to R87), and the names of the model refusals of R202. -/

namespace Sys2Proof

/-- One constructor per row of the opcode table (R81). -/
inductive Instr where
  /-- SET_DIGITS, format F_DIG: digits, decimal points, animation steps (R82). -/
  | setDigits (val : Six Digit) (dp : Five Bool) (anim : Six AnimStep)
  /-- SET_BRIGHTNESS, format F_BRT (R83). -/
  | setBrightness (pct : BitVec 8)
  /-- SET_AUTO_BRIGHTNESS, format F_LUX (R84). -/
  | setAutoBrightness (lux : BitVec 32)
  /-- TIMER_EXPIRY, format F_NONE (R85): the timer agent's event. -/
  | timerExpiry
  /-- START, format F_DLY (R86). -/
  | start (delay : BitVec 32)
  /-- LOAD_PIN, format F_PIN (R87). -/
  | loadPin (row : BitVec 3) (col : BitVec 4) (pin : Pin)
deriving DecidableEq, Repr

/-- The reasons of R202: what the sticky mark `refused` can hold. -/
inductive RefuseReason where
  /-- Decode: `op` is 0x0 or 0x7..0xF. -/
  | reservedOpcode
  /-- Decode: a reserved bit of the format is 1. -/
  | reservedBitsNonzero
  /-- Decode of LOAD_PIN: no such row and column. -/
  | pinIndexOutOfRange
  /-- Decode of START: the first duration exceeds TIMER_MAX. -/
  | delayOutOfRange
  /-- LOAD_PIN once `running = 1`. -/
  | tableImmutable
  /-- START once `running = 1`. -/
  | alreadyStarted
deriving DecidableEq, Repr

end Sys2Proof
end

