-- ==== Sys2Proof/Machine/Operands.lean ====
section
/-! DEFINITION. Operand forms: the range checks, clamps and maps applied to an operation's operands
(spec/20_memory.md R61, R63; 30_encoding.md R89, R90; 41 R129; 42 R141; 43 R161 to R165). -/

namespace Sys2Proof.Machine

/-! ## Pin table indexes and pin numbers -/

/-- The row of the decimal points (R61). -/
def dpRow : Nat := nPos

/-- R90: rows 0..5 have columns 0..9, row 6 has columns 0..4. -/
def pinIndexValid (row : BitVec 3) (col : BitVec 4) : Bool :=
  (row.toNat < nPos && col.toNat < nDig) || (row.toNat = dpRow && col.toNat < nDp)

/-- The number of entries of the pin memory (R61). -/
def pinCells : Nat := nPos * nDig + nDp

/-- The list key of entry `(row, col)`: row-major, the decimal-point row last. DESIGN CHOICE, log
entry 5. -/
def pinAddr (row col : Nat) : Nat := row * nDig + col

/-- One of the driver chips, NCHIP of them (R9). -/
inductive Chip where
  | chip0
  | chip1
deriving DecidableEq, Repr

/-- R63: the chip and the bit a pin number names; the pins of R64 name none. -/
def pinToBit (p : Pin) : Option (Chip × Nat) :=
  if chip0Base ≤ p.toNat ∧ p.toNat < chip0Base + wordBits then
    some (.chip0, p.toNat - chip0Base)
  else if chip1Base ≤ p.toNat ∧ p.toNat < chip1Base + wordBits then
    some (.chip1, p.toNat - chip1Base)
  else none

/-! ## Clamps -/

/-- R129: BCLAMP. -/
def bclamp (c : Config) (x : Nat) : Nat := min x c.maxBrightness

/-- R161: an animation step above ANIM_N acts as ANIM_N. -/
def clampAnim (c : Config) (a : AnimStep) : AnimStep :=
  if a.toNat ≤ c.animN then a else BitVec.ofNat 5 c.animN

/-- R164: the larger of two steps. -/
def maxStep (a b : AnimStep) : AnimStep := if a.toNat ≤ b.toNat then b else a

/-- R164: the global crossfade step, the maximum over the six positions. -/
def globalStep (a : Six AnimStep) : AnimStep :=
  maxStep a.p0 (maxStep a.p1 (maxStep a.p2 (maxStep a.p3 (maxStep a.p4 a.p5))))

/-- R141, R146: every duration passed to the timer is raised to T_FLOOR. -/
def floorTicks (d : Nat) : Nat := max d tFloor

/-- R90: START's first duration is one the timer accepts. -/
def delayInRange (c : Config) (delay : BitVec 32) : Bool :=
  floorTicks delay.toNat ≤ c.timerMax

/-! ## Digits -/

/-- R103: a digit value of at least BLANK_MIN is blank. -/
def isBlank (d : Digit) : Bool := blankMin ≤ d.toNat

/-- R163: a position whose value changes keeps its former value as its previous digit. -/
def nextPrev (val last prev : Digit) : Digit := if val ≠ last then last else prev

/-- R165: a position that does not animate shows its new digit in the old frame too. -/
def oldDigit (val : Digit) (anim : AnimStep) (prev : Digit) : Digit :=
  if anim = 0 then val else prev

end Sys2Proof.Machine
end

