-- ==== Sys2Proof/WellFormed.lean ====
section
/-! DEFINITION. Which operations a command word can spell under a configuration: the two checks on
field values of spec/30_encoding.md R90. -/

namespace Sys2Proof

/-- R90: LOAD_PIN needs an existing entry, START a first duration within TIMER_MAX; every other
field value is accepted (R89). -/
def Instr.wellFormed (c : Config) : Instr → Bool
  | .setDigits _ _ _ => true
  | .setBrightness _ => true
  | .setAutoBrightness _ => true
  | .timerExpiry => true
  | .start delay => Machine.delayInRange c delay
  | .loadPin row col _ => Machine.pinIndexValid row col

end Sys2Proof
end

