-- ==== Sys2Proof/Decode.lean ====
section
/-! DEFINITION. Decoding a 64-bit command word, total and refusing by name in the order of
spec/30_encoding.md R90, and after it the encoder of R82 to R87. -/

namespace Sys2Proof

open Machine

/-! ## Fields (R80, R82 to R88) -/

/-- `op = w[63:60]`. -/
def opOf (w : Command) : BitVec 4 := w.extractLsb' 60 4

/-- `d_i = w[4i+3 : 4i]`. -/
def digitsOf (w : Command) : Six Digit :=
  ⟨w.extractLsb' 0 4, w.extractLsb' 4 4, w.extractLsb' 8 4,
   w.extractLsb' 12 4, w.extractLsb' 16 4, w.extractLsb' 20 4⟩

/-- `dp_j = w[24+j]`. -/
def dpOf (w : Command) : Five Bool :=
  ⟨w.getLsbD 24, w.getLsbD 25, w.getLsbD 26, w.getLsbD 27, w.getLsbD 28⟩

/-- `a_i = w[29+5i+4 : 29+5i]`. -/
def animOf (w : Command) : Six AnimStep :=
  ⟨w.extractLsb' 29 5, w.extractLsb' 34 5, w.extractLsb' 39 5,
   w.extractLsb' 44 5, w.extractLsb' 49 5, w.extractLsb' 54 5⟩

/-- The mask of the op field, R90's `mask(op)`. -/
def opMask : Command := 0xF000000000000000

/-- The field bits of each format, R90's `fieldmask(op)`. -/
def fieldMask (op : BitVec 4) : Command :=
  match op.toNat with
  | 1 => 0x07FFFFFFFFFFFFFF
  | 2 => 0x00000000000000FF
  | 3 => 0x00000000FFFFFFFF
  | 4 => 0x0000000000000000
  | 5 => 0x00000000FFFFFFFF
  | 6 => 0x0000000000070FFF
  | _ => 0

/-- The operation an op code names, with its fields; none for the codes R91 reserves. -/
def readFields (w : Command) : Option Instr :=
  match (opOf w).toNat with
  | 1 => some (.setDigits (digitsOf w) (dpOf w) (animOf w))
  | 2 => some (.setBrightness (w.extractLsb' 0 8))
  | 3 => some (.setAutoBrightness (w.extractLsb' 0 32))
  | 4 => some .timerExpiry
  | 5 => some (.start (w.extractLsb' 0 32))
  | 6 => some (.loadPin (w.extractLsb' 16 3) (w.extractLsb' 8 4) (w.extractLsb' 0 8))
  | _ => none

/-- The last two checks of R90, on field values. -/
def checkRange (c : Config) (i : Instr) : Except RefuseReason Instr :=
  match i with
  | .setDigits _ _ _ => .ok i
  | .setBrightness _ => .ok i
  | .setAutoBrightness _ => .ok i
  | .timerExpiry => .ok i
  | .start delay => if delayInRange c delay then .ok i else .error .delayOutOfRange
  | .loadPin row col _ => if pinIndexValid row col then .ok i else .error .pinIndexOutOfRange

/-- R90: `decode(w)`, total on every 64-bit word. -/
def decode (c : Config) (w : Command) : Except RefuseReason Instr :=
  match readFields w with
  | none => .error .reservedOpcode
  | some i =>
    if w &&& ~~~opMask &&& ~~~(fieldMask (opOf w)) ≠ 0 then .error .reservedBitsNonzero
    else checkRange c i

/-! ## The encoder -/

/-- The op code of each operation (R81). -/
def Instr.opcode : Instr → BitVec 4
  | .setDigits _ _ _ => 0x1
  | .setBrightness _ => 0x2
  | .setAutoBrightness _ => 0x3
  | .timerExpiry => 0x4
  | .start _ => 0x5
  | .loadPin _ _ _ => 0x6

/-- A field `x` whose lowest bit stands at bit `lo` of the command word. -/
def place {n : Nat} (x : BitVec n) (lo : Nat) : Command := x.setWidth 64 <<< lo

/-- The command word of an operation: each field at the place R82 to R87 give it, every reserved
bit zero. -/
def encode (i : Instr) : Command :=
  place i.opcode 60 |||
  match i with
  | .setDigits v dp a =>
      place a.p5 54 ||| place a.p4 49 ||| place a.p3 44 |||
      place a.p2 39 ||| place a.p1 34 ||| place a.p0 29 |||
      place (BitVec.ofBool dp.p4) 28 ||| place (BitVec.ofBool dp.p3) 27 |||
      place (BitVec.ofBool dp.p2) 26 ||| place (BitVec.ofBool dp.p1) 25 |||
      place (BitVec.ofBool dp.p0) 24 |||
      place v.p5 20 ||| place v.p4 16 ||| place v.p3 12 |||
      place v.p2 8 ||| place v.p1 4 ||| place v.p0 0
  | .setBrightness pct => place pct 0
  | .setAutoBrightness lux => place lux 0
  | .timerExpiry => 0
  | .start delay => place delay 0
  | .loadPin row col pin => place row 16 ||| place col 8 ||| place pin 0

/-! ## The host's view of the decoder -/

/-- The command word whose bits are `w`: `nbits` of them count, every bit above is 0. The block
stores no words in bytes (R69), so bit `k` of the number is bit `k` of the word. -/
def commandOf (nbits w : Nat) : Command := BitVec.ofNat 64 (w % 2 ^ nbits)

/-- What `decode` reads from a table word under parameter set PA (log entry 1). There is one length
of command word, 64 bits (R80). -/
def decodeTableWord (nbits w : Nat) : Option Instr :=
  if 64 < nbits then none
  else (decode Config.testSet (commandOf nbits w)).toOption

end Sys2Proof
end

