-- ==== Sys2Proof/Machine/Plan.lean ====
section
/-! DEFINITION. PLAN, the brightness-to-timing conversion (spec/41_timing_converter.md R120 to
R127). It stands before State because the reset snapshot carries PLAN(0, 0) (R41). -/

namespace Sys2Proof.Machine

/-- R39: the three phase durations, in ticks. -/
structure TimingPlan where
  showOld : Nat
  showNew : Nat
  blankTime : Nat
deriving DecidableEq, Repr

/-- R121: the on-time of a refresh cycle. -/
def pwmOf (c : Config) (b : Nat) : Nat :=
  max c.pwmMin (c.refreshPeriod * b / c.maxBrightness)

/-- R123: the crossfade formula before the visibility clamp. -/
def rawOld (c : Config) (pwm s : Nat) : Nat := pwm * (c.animN - s) / c.animN

/-- R123: the visibility clamp, the lower test first. -/
def clampVisible (c : Config) (pwm raw : Nat) : Nat :=
  if raw < c.tVis then 0 else if pwm - raw < c.tVis then pwm else raw

/-- R122, R123: the first two durations for an on-time and a step. -/
def splitOnTime (c : Config) (pwm s : Nat) : Nat × Nat :=
  if s = 0 then (pwm / 2, pwm / 2)
  else
    let so := clampVisible c pwm (rawOld c pwm s)
    (so, pwm - so)

/-- R124: PLAN(b, s). -/
def plan (c : Config) (b s : Nat) : TimingPlan :=
  let (so, sn) := splitOnTime c (pwmOf c b) s
  { showOld := so, showNew := sn, blankTime := c.refreshPeriod - so - sn }

end Sys2Proof.Machine
end

