-- ==== Sys2Proof/Machine/State.lean ====
section
/-! DEFINITION. The state of the block (spec/10_state.md, 20_memory.md R61), its reset (70 R220) and
the reasons a step can stop. -/

namespace Sys2Proof.Machine

/-! ## Types of the registers -/

/-- R39: the pair of 32-bit driver words. -/
structure BitFrame where
  chip0 : Word
  chip1 : Word
deriving DecidableEq, Repr

/-- R39: the value the producer publishes and the FSM reads. -/
structure Snapshot where
  old : BitFrame
  new : BitFrame
  plan : TimingPlan
  b : Nat
deriving DecidableEq, Repr

/-- R42, R140: the FSM's phases. -/
inductive Phase where
  | showOld
  | showNew
  | blank
deriving DecidableEq, Repr

/-- R37: which form of brightness is in force. -/
inductive BMode where
  | fixed
  | auto
deriving DecidableEq, Repr

/-- R45: the levels of the three output lines. -/
structure Lines where
  clk : Bool
  data : Bool
  oe : Bool
deriving DecidableEq, Repr

/-- R50: an event of the wire trace. -/
inductive WireEvent where
  | clk (level : Bool)
  | data (level : Bool)
  | oe (level : Bool)
  | delay
deriving DecidableEq, Repr

/-- What the outside world sends the block, one at a time (R70, R71, R221): a command word, the
timer agent's TIMER_EXPIRY word among them (R81), or a reset. Log entry 3. -/
inductive Event where
  | command (w : Command)
  | reset
deriving DecidableEq, Repr

/-! ## The state -/

/-- Everything the spec gives the block, the model-only state of R50, the parameters of R11 and the
events still to come. INVENTORY.md lists each field with its rule and reset value. -/
structure State where
  /-- The parameters of R11, fixed for a run (log entry 1). -/
  cfg : Config
  /-- R32: last-rendered digits. -/
  lastVal : Six Digit
  /-- R33: last-rendered decimal points. -/
  lastDp : Five Bool
  /-- R34: last-rendered animation steps, clamped. -/
  lastAnim : Six AnimStep
  /-- R35: previous digits. -/
  prevDigit : Six Digit
  /-- R36: global crossfade step. -/
  animStep : AnimStep
  /-- R37: brightness form. -/
  bMode : BMode
  /-- R38: clamped brightness. -/
  bright : Nat
  /-- R39: published snapshot. -/
  snap : Snapshot
  /-- R42: phase displayed now. -/
  phase : Phase
  /-- R43: START has run. -/
  running : Bool
  /-- R44: the one-shot timer is armed. -/
  timerArmed : Bool
  /-- R44: duration last loaded into the timer, ticks. -/
  timerLoad : Nat
  /-- R45: CLK, DATA, OE. -/
  lines : Lines
  /-- R61: the digit-to-pin table. A list of (key, pin) with rising keys; an unlisted entry is 0. -/
  pinMem : List Host.Cell
  /-- R50: wire events, oldest first. -/
  wireTrace : List WireEvent
  /-- R50: the durations of the ARM events, oldest first. -/
  timerTrace : List Nat
  /-- R50: publish steps taken. -/
  pubCount : Nat
  /-- R50, R202: the sticky refusal mark. -/
  refused : Option RefuseReason
  /-- Events still to come, next one first (the model's own, log entry 3). -/
  inbox : List Event
deriving DecidableEq, Repr

/-! ## Stops -/

/-- The block raises no exception and has no fault state (R200; 93_implementation_defined.md "No
behaviour is treated as `fault` or `stuck`"), so there is no constructor: no step can fault. -/
inductive Fault where
deriving DecidableEq, Repr

/-- Why a step answers no next state. The refusals R202 names are not here: after one of those the
block goes on, with the mark `State.refused` set. -/
inductive Refusal where
  /-- Raised by an arm of `exec` that has no meaning yet. No arm raises it. Safe. -/
  | notModelled (mnemonic : String)
  /-- Raised by `execTimerExpiry` when `timerArmed = 0`: R142 gives the timer agent no step then, so
  no run has this event here. Safe (log entry 4). -/
  | timerNotArmed
  /-- Raised by `step` on a state whose parameters break R11: R12 and I18 refuse to build such a
  block. Safe (log entry 1). -/
  | configIllFormed
deriving DecidableEq, Repr

/-! ## Reset -/

/-- R46: CLK = 1, DATA = 0, OE = 0. -/
def Lines.reset : Lines := { clk := true, data := false, oe := false }

/-- A frame that lights nothing. -/
def BitFrame.dark : BitFrame := { chip0 := 0, chip1 := 0 }

/-- The blank sentinel, 15 (R32, D4). -/
def blankDigit : Digit := 15

/-- R220: the block with parameters `c` right after reset. -/
def State.resetWith (c : Config) : State where
  cfg := c
  lastVal := .fill blankDigit
  lastDp := .fill false
  lastAnim := .fill 0
  prevDigit := .fill blankDigit
  animStep := 0
  bMode := .fixed
  bright := 0
  snap := { old := .dark, new := .dark, plan := plan c 0 0, b := 0 }
  phase := .blank
  running := false
  timerArmed := false
  timerLoad := 0
  lines := .reset
  pinMem := []
  wireTrace := []
  timerTrace := []
  pubCount := 0
  refused := none
  inbox := []

/-- R12: a block is built only from a well-formed configuration. -/
def State.build (c : Config) : Option State :=
  if c.wf then some (State.resetWith c) else none

/-- The machine right after reset, with parameter set PA (log entry 1). -/
def State.reset : State := State.resetWith Config.testSet

end Sys2Proof.Machine
end

