-- ==== Sys2Proof/Machine/Ops.lean ====
section
/-! DEFINITION. The shared operations over memory and registers: the primitives of spec/00_scope.md
R17, the refusal of R202 and the taking of the timer interrupt (R142, R203, R207, R208). -/

namespace Sys2Proof.Machine

/-! ## Pin memory (R61, R62) -/

/-- What an entry never written reads as: the reset value 0 (R61). -/
def Memory.unlisted : Pin := 0

/-- The canonical form: keys strictly rising and within the 65 entries, no entry equal to what an
unlisted one reads as. -/
abbrev Memory.wf (m : List Host.Cell) : Prop :=
  m.Pairwise (fun x y => x.1 < y.1) ∧ ∀ e ∈ m, e.1 < pinCells ∧ e.2 ≠ Memory.unlisted

/-- The value at a key. -/
def Memory.read (m : List Host.Cell) (a : Nat) : Pin :=
  match m with
  | [] => Memory.unlisted
  | (b, v) :: rest => if b = a then v else Memory.read rest a

/-- Set the value at a key, keeping the canonical form. -/
def Memory.write (m : List Host.Cell) (a : Nat) (v : Pin) : List Host.Cell :=
  match m with
  | [] => if v = Memory.unlisted then [] else [(a, v)]
  | (b, x) :: rest =>
    if a < b then (if v = Memory.unlisted then (b, x) :: rest else (a, v) :: (b, x) :: rest)
    else if a = b then (if v = Memory.unlisted then rest else (a, v) :: rest)
    else (b, x) :: Memory.write rest a v

/-- R62: PinRead(row, col). -/
def pinRead (m : List Host.Cell) (row col : Nat) : Pin := Memory.read m (pinAddr row col)

/-- R62: PinWrite(row, col, v). -/
def pinWrite (row col : Nat) (v : Pin) (s : State) : State :=
  { s with pinMem := Memory.write s.pinMem (pinAddr row col) v }

/-! ## Wires (R17, R45) -/

/-- The levels after an event. -/
def Lines.drive (l : Lines) : WireEvent → Lines
  | .clk level => { l with clk := level }
  | .data level => { l with data := level }
  | .oe level => { l with oe := level }
  | .delay => l

/-- R17: `emit` and `delay` for a sequence of events: each drives its line and is appended to the
wire trace, in order. -/
def emitAll (es : List WireEvent) (s : State) : State :=
  { s with lines := es.foldl Lines.drive s.lines, wireTrace := s.wireTrace ++ es }

/-- R17: `emit(line, level)`. -/
def emit (e : WireEvent) (s : State) : State := emitAll [e] s

/-! ## Timer, snapshot, refusal -/

/-- R17, R44: `arm(d)`. -/
def arm (d : Nat) (s : State) : State :=
  { s with timerArmed := true, timerLoad := d, timerTrace := s.timerTrace ++ [d] }

/-- R66: `publish(S)`, all four fields in one step. -/
def publish (S : Snapshot) (s : State) : State :=
  { s with snap := S, pubCount := s.pubCount + 1 }

/-- R202: a model refusal changes nothing but the sticky mark. A later refusal replaces the reason
(log entry 6). -/
def refuse (r : RefuseReason) (s : State) : State := { s with refused := some r }

/-- R142, R203, R207: taking the timer interrupt clears `timerArmed` and saves nothing; control goes
to the one handler, TIMER_EXPIRY. Its return (R208) is the `arm` that ends the handler: there is no
saved state to restore. -/
def takeExpiry (s : State) : State := { s with timerArmed := false }

end Sys2Proof.Machine
end

