-- ==== Sys2Proof/Machine/Flags.lean ====
section
/-! DEFINITION. The combinational condition signals of spec/10_state.md R48 and R49. The block
stores no flag. -/

namespace Sys2Proof.Machine

/-- R48: `showOld < T_SKIP_OLD`. -/
def skipOld (p : TimingPlan) : Bool := p.showOld < tSkipOld

/-- R48: `blankTime < T_SKIP_BLANK`. -/
def skipBlank (p : TimingPlan) : Bool := p.blankTime < tSkipBlank

/-- R48: `b = 0`. -/
def dark (S : Snapshot) : Bool := S.b = 0

/-- R49, R161: the clamped arrays differ from the last-rendered ones, by raw value. -/
def changed (val : Six Digit) (dp : Five Bool) (anim : Six AnimStep) (s : State) : Bool :=
  (val, dp, anim) ≠ (s.lastVal, s.lastDp, s.lastAnim)

end Sys2Proof.Machine
end

