-- ==== Sys2Proof/Machine/SerialLink.lean ====
section
/-! DEFINITION. The Serial Link: SHIFT_WORD and SHIFT_FRAME (spec/44_serial_link.md R180 to R185). -/

namespace Sys2Proof.Machine

/-- R181, R182: the index of the k-th bit sent. -/
def bitIndex (o : BitOrder) (k : Nat) : Nat :=
  match o with
  | .msbFirst => wordBits - 1 - k
  | .lsbFirst => k

/-- R181: the events that send one bit. -/
def bitEvents (b : Bool) : List WireEvent :=
  [.clk true, .data b, .delay, .clk false, .delay]

/-- R181: the events of SHIFT_WORD(w), ending with the clock idle high. -/
def wordEvents (o : BitOrder) (w : Word) : List WireEvent :=
  (List.range wordBits).flatMap (fun k => bitEvents (w.getLsbD (bitIndex o k))) ++ [.clk true]

/-- R183: the chip-1 word, then the chip-0 word. -/
def frameEvents (o : BitOrder) (f : BitFrame) : List WireEvent :=
  wordEvents o f.chip1 ++ wordEvents o f.chip0

/-- R183: SHIFT_FRAME(F). -/
def shiftFrame (f : BitFrame) (s : State) : State := emitAll (frameEvents s.cfg.bitOrder f) s

end Sys2Proof.Machine
end

