-- ==== Sys2Proof/Machine/FrameFsm.lean ====
section
/-! DEFINITION. The Frame State Machine: START and TIMER_EXPIRY (spec/42_frame_fsm.md). -/

namespace Sys2Proof.Machine

/-- R140: the cycle ShowOld, ShowNew, Blank. -/
def Phase.succ : Phase → Phase
  | .showOld => .showNew
  | .showNew => .blank
  | .blank => .showOld

/-- R144: the guard on Blank. -/
def skipIntoOld (c : Phase) (p : TimingPlan) : Phase :=
  if c = .blank ∧ skipBlank p then .showOld else c

/-- R144: the guard on ShowOld, evaluated after the one on Blank. -/
def skipIntoNew (c : Phase) (p : TimingPlan) : Phase :=
  if c = .showOld ∧ skipOld p then .showNew else c

/-- R144: ENTER(c, plan). -/
def enter (c : Phase) (p : TimingPlan) : Phase := skipIntoNew (skipIntoOld c p) p

/-- R143 step 2: the plan field of a phase. -/
def phaseTicks (ph : Phase) (p : TimingPlan) : Nat :=
  match ph with
  | .showOld => p.showOld
  | .showNew => p.showNew
  | .blank => p.blankTime

/-- R143 step 2: what a phase shifts out; Blank shifts nothing (R149). -/
def phaseFrame (ph : Phase) (S : Snapshot) : Option BitFrame :=
  match ph with
  | .showOld => some S.old
  | .showNew => some S.new
  | .blank => none

/-- R143 step 2: shift the phase's frame, if it has one. -/
def shiftPhase (ph : Phase) (S : Snapshot) (s : State) : State :=
  match phaseFrame ph S with
  | some f => shiftFrame f s
  | none => s

/-- R143 step 4, R147: raise OE unless the phase is Blank or the brightness is zero. -/
def raiseOutput (ph : Phase) (S : Snapshot) (s : State) : State :=
  if ph ≠ .blank ∧ dark S = false then emit (.oe true) s else s

/-- R143: the handler, in the order it is written: read the snapshot once (R67), OE low, enter and
shift the phase, raise OE, write `phase` (R145), re-arm (R146). -/
def renderPhase (s : State) : State :=
  let S := s.snap
  let ph := enter s.phase.succ S.plan
  let s1 := shiftPhase ph S (emit (.oe false) s)
  let s2 := raiseOutput ph S s1
  arm (floorTicks (phaseTicks ph S.plan)) { s2 with phase := ph }

/-- R142, R143: TIMER_EXPIRY. The timer agent has a step exactly when `timerArmed = 1`; without one
this event is no step of the block (log entry 4). -/
def execTimerExpiry (s : State) : Host.Outcome State Fault Refusal :=
  if s.timerArmed then .next (renderPhase (takeExpiry s)) else .refused .timerNotArmed

/-- R141: START. -/
def execStart (delay : BitVec 32) (s : State) : Host.Outcome State Fault Refusal :=
  if delayInRange s.cfg delay then
    if s.running then .next (refuse .alreadyStarted s)
    else .next (arm (floorTicks delay.toNat) { s with running := true })
  else .next (refuse .delayOutOfRange s)

end Sys2Proof.Machine
end

