-- ==== Sys2Proof/Machine/TimingConverter.lean ====
section
/-! DEFINITION. The two brightness operations (spec/41_timing_converter.md R129 to R132). -/

namespace Sys2Proof.Machine

/-- R130, R131: set the brightness form and the clamped brightness, and republish the frames with a
plan for them. -/
def applyBrightness (mode : BMode) (b : Nat) (s : State) : State :=
  publish { old := s.snap.old, new := s.snap.new, plan := plan s.cfg b s.animStep.toNat, b := b }
    { s with bMode := mode, bright := b }

/-- R130: SET_BRIGHTNESS. -/
def execSetBrightness (pct : BitVec 8) (s : State) : Host.Outcome State Fault Refusal :=
  .next (applyBrightness .fixed (bclamp s.cfg pct.toNat) s)

/-- R131: SET_AUTO_BRIGHTNESS; the lux law is free (log entry 2). -/
def execSetAutoBrightness (lux : BitVec 32) (s : State) : Host.Outcome State Fault Refusal :=
  .next (applyBrightness .auto (bclamp s.cfg (Config.luxToB lux)) s)

end Sys2Proof.Machine
end

