-- ==== Sys2Proof/Machine/BitEncoder.lean ====
section
/-! DEFINITION. The Bit Encoder: ENCODE and the operation LOAD_PIN (spec/40_bit_encoder.md). -/

namespace Sys2Proof.Machine

/-- R101: SETPIN. Bits are only ever set (R102); a pin with no bit lights nothing (R105). -/
def setPin (f : BitFrame) (p : Pin) : BitFrame :=
  match pinToBit p with
  | some (.chip0, k) => { f with chip0 := f.chip0 ||| ((1 : Word) <<< k) }
  | some (.chip1, k) => { f with chip1 := f.chip1 ||| ((1 : Word) <<< k) }
  | none => f

/-- R101, R103: the pin-memory entry a position's digit reads; a blank digit reads none. -/
def digitPins (m : List Host.Cell) (row : Nat) (d : Digit) : List Pin :=
  if isBlank d then [] else [pinRead m row d.toNat]

/-- R101, R104: the entry a decimal point reads, from the separate row. -/
def dpPins (m : List Host.Cell) (col : Nat) (lit : Bool) : List Pin :=
  if lit then [pinRead m dpRow col] else []

/-- The pins ENCODE hands to SETPIN, in order. -/
def litPins (m : List Host.Cell) (dig : Six Digit) (dp : Five Bool) : List Pin :=
  dig.indexed.flatMap (fun x => digitPins m x.1 x.2) ++
  dp.indexed.flatMap (fun x => dpPins m x.1 x.2)

/-- R100, R101: ENCODE. -/
def encodeFrame (m : List Host.Cell) (dig : Six Digit) (dp : Five Bool) : BitFrame :=
  (litPins m dig dp).foldl setPin .dark

/-- R107: LOAD_PIN. -/
def execLoadPin (row : BitVec 3) (col : BitVec 4) (pin : Pin) (s : State) :
    Host.Outcome State Fault Refusal :=
  if pinIndexValid row col then
    if s.running then .next (refuse .tableImmutable s)
    else .next (pinWrite row.toNat col.toNat pin s)
  else .next (refuse .pinIndexOutOfRange s)

end Sys2Proof.Machine
end

