-- ==== Sys2Proof/Machine/TransitionBuffer.lean ====
section
/-! DEFINITION. The Transition Buffer: SET_DIGITS (spec/43_transition_buffer.md). -/

namespace Sys2Proof.Machine

/-- R165, R166: the old frame, from the digits, the clamped steps and the previous digits. -/
def oldFrame (m : List Host.Cell) (val : Six Digit) (dp : Five Bool) (anim : Six AnimStep)
    (prev : Six Digit) : BitFrame :=
  if globalStep anim = 0 then encodeFrame m val dp
  else encodeFrame m (.zipWith3 oldDigit val anim prev) dp

/-- R162 to R167: what SET_DIGITS does on a change, `anim` being the clamped steps. -/
def renderDigits (val : Six Digit) (dp : Five Bool) (anim : Six AnimStep) (s : State) : State :=
  let prev := Six.zipWith3 nextPrev val s.lastVal s.prevDigit
  let step := globalStep anim
  publish
    { old := oldFrame s.pinMem val dp anim prev
      new := encodeFrame s.pinMem val dp
      plan := plan s.cfg s.bright step.toNat
      b := s.bright }
    { s with lastVal := val, lastDp := dp, lastAnim := anim, prevDigit := prev, animStep := step }

/-- R168: SET_DIGITS. -/
def execSetDigits (val : Six Digit) (dp : Five Bool) (anim : Six AnimStep) (s : State) :
    Host.Outcome State Fault Refusal :=
  let clamped := anim.map (clampAnim s.cfg)
  if changed val dp clamped s then .next (renderDigits val dp clamped s) else .next s

end Sys2Proof.Machine
end

