-- ==== Sys2Proof/Machine/Dispatch.lean ====
section
/-! DEFINITION. One arm per operation of the opcode table, each one call of its meaning. -/

namespace Sys2Proof.Machine

/-- R81: the effect of an operation. -/
def exec (i : Instr) (s : State) : Host.Outcome State Fault Refusal :=
  match i with
  | .setDigits val dp anim => Sys2Proof.Machine.execSetDigits val dp anim s
  | .setBrightness pct => Sys2Proof.Machine.execSetBrightness pct s
  | .setAutoBrightness lux => Sys2Proof.Machine.execSetAutoBrightness lux s
  | .timerExpiry => Sys2Proof.Machine.execTimerExpiry s
  | .start delay => Sys2Proof.Machine.execStart delay s
  | .loadPin row col pin => Sys2Proof.Machine.execLoadPin row col pin s

end Sys2Proof.Machine
end

