-- ==== Sys2Proof/Machine/Schedule.lean ====
section
/-! DEFINITION. What one step does with the next event, for `Machine/Step.lean` to call: the block
fetches nothing (spec/20_memory.md R74); its operations come one at a time from two agents (R70, R71;
60_exceptions.md R205) and a reset may come between any two (70 R221). -/

namespace Sys2Proof.Machine

/-- A command word: its operation, or the refusal R202 gives an undecodable word. -/
def runCommand (w : Command) (s : State) : Host.Outcome State Fault Refusal :=
  match decode s.cfg w with
  | .ok i => exec i s
  | .error r => .next (refuse r s)

/-- R220, R221: every register to its reset value. The parameters and the events still to come are
not the block's registers and stay. -/
def resetEvent (s : State) : State := { State.resetWith s.cfg with inbox := s.inbox }

/-- No event is pending: the timer agent, if it has a step, takes it (R142; weak fairness, R205);
otherwise the block is idle (R221). Log entry 3. -/
def runQuiet (s : State) : Host.Outcome State Fault Refusal :=
  if s.timerArmed then exec .timerExpiry s else .next s

/-- The next event of the run. -/
def runEvent (s : State) : Host.Outcome State Fault Refusal :=
  match s.inbox with
  | [] => runQuiet s
  | .command w :: rest => runCommand w { s with inbox := rest }
  | .reset :: rest => .next (resetEvent { s with inbox := rest })

/-- Put a command word first among the events to come; a TIMER_EXPIRY word comes only from an armed
timer (R142), so for that word the timer is armed too (log entry 7). -/
def placeCommand (w : Command) (s : State) : State :=
  { s with
    inbox := .command w :: s.inbox
    timerArmed := s.timerArmed || w == encode .timerExpiry }

end Sys2Proof.Machine
end

