-- ==== Sys2Proof/Machine/Step.lean ====
section
/-! DEFINITION. One step: the next event of the run (log entry 3). -/

namespace Sys2Proof.Machine

/-- R71: one whole operation, or a reset. R12: no block has parameters that break R11. -/
def step (s : State) : Host.Outcome State Fault Refusal :=
  if s.cfg.wf then runEvent s else .refused .configIllFormed

/-- `s` with the command word whose bits are `w` as the next event. -/
def State.withFetchWord (s : State) (nbits w : Nat) : State := placeCommand (commandOf nbits w) s

end Sys2Proof.Machine
end

