-- ==== Sys2Proof/Machine/Observer.lean ====
section
/-! DEFINITION. The driver-chain observer of spec/44_serial_link.md R188: outside the block, a
function of its wire trace, for saying what the tubes display. It is no part of State. -/

namespace Sys2Proof.Machine

/-- The bits of the chained chips' shift register, 64 (R188). -/
abbrev chainBits : Nat := nChip * wordBits

/-- A value of that register: chip 0, the nearest the input, in the low bits (R188). -/
abbrev Chain := BitVec chainBits

/-- R188: the line levels seen, the 64-bit shift register and the displayed value. -/
structure Observer where
  lines : Lines
  chain : Chain
  shown : Chain
deriving DecidableEq, Repr

namespace Observer

/-- Before any event: the lines at their reset levels, `chain` and `shown` zero. -/
def reset : Observer := { lines := .reset, chain := 0, shown := 0 }

/-- R188: a falling CLK edge shifts DATA in at the low end. -/
def shiftIn (chain : Chain) (data : Bool) : Chain :=
  (chain <<< 1) ||| (BitVec.ofBool data).setWidth chainBits

/-- R188: one wire event. OE going to 1 copies `chain`; while OE = 0 nothing is shown. -/
def see (o : Observer) (e : WireEvent) : Observer :=
  let seen := { o with lines := o.lines.drive e }
  match e with
  | .clk level =>
    if o.lines.clk ∧ level = false then { seen with chain := shiftIn o.chain o.lines.data } else seen
  | .data _ => seen
  | .oe level =>
    if level then (if o.lines.oe then seen else { seen with shown := o.chain })
    else { seen with shown := 0 }
  | .delay => seen

/-- The observer after a wire trace. -/
def watch (es : List WireEvent) : Observer := es.foldl see reset

/-- R188: whether driver output pin `p` is lit. Chip 0 is the low half of `shown`. -/
def lit (o : Observer) (p : Pin) : Bool :=
  match pinToBit p with
  | some (.chip0, k) => o.shown.getLsbD k
  | some (.chip1, k) => o.shown.getLsbD (wordBits + k)
  | none => false

end Observer

end Sys2Proof.Machine
end

