-- ==== Sys2Proof/Safety.lean ====
section
/-! DEFINITION. What claims about runs are stated in: the invariant of the block's registers, the
discipline of the wires, and runs of several steps. -/

namespace Sys2Proof.Machine

/-! ## Runs -/

/-- `k` steps of the machine, stopping at the first stop. -/
def runFrom (k : Nat) (s : State) : Host.Outcome State Fault Refusal := Host.Core.run core k s

/-- Operations one after another, stopping at the first stop. -/
def execAll : List Instr → State → Host.Outcome State Fault Refusal
  | [], s => .next s
  | i :: is, s =>
    match exec i s with
    | .next t => execAll is t
    | .fault r => .fault r
    | .refused r => .refused r

/-- R202: "A claim about a run takes `refused = none` as a premise." -/
def State.clean (s : State) : Prop := s.refused = none

/-- No reset is among the events to come. -/
def State.noReset (s : State) : Prop := Event.reset ∉ s.inbox

/-- R142, R205: the next step is a TIMER_EXPIRY of an armed timer, by its word or with nothing else to
come. -/
def State.expiresNext (s : State) : Prop :=
  s.timerArmed = true ∧
    (s.inbox = [] ∨
      ∃ w rest, s.inbox = .command w :: rest ∧ decode s.cfg w = .ok .timerExpiry)

/-! ## The invariant -/

/-- R40: what every publish keeps of the snapshot, with the registers it was made from. -/
structure SnapInv (s : State) : Prop where
  /-- The published plan is PLAN of the brightness and the step in force. -/
  planned : s.snap.plan = plan s.cfg s.bright s.animStep.toNat
  /-- The three durations sum to REFRESH_PERIOD. -/
  sum : s.snap.plan.showOld + s.snap.plan.showNew + s.snap.plan.blankTime = s.cfg.refreshPeriod
  /-- The brightness the FSM tests is the clamped brightness. -/
  sameB : s.snap.b = s.bright
  /-- R38. -/
  brightMax : s.bright ≤ s.cfg.maxBrightness
  /-- Without a crossfade the two frames are the same. -/
  steady : s.animStep = 0 → s.snap.old = s.snap.new

/-- R34, R36, R164: the stored animation steps. -/
structure AnimInv (s : State) : Prop where
  each : ∀ i, (s.lastAnim.get i).toNat ≤ s.cfg.animN
  global : s.animStep = globalStep s.lastAnim

/-- R44, R150, R153, R211: the one-shot timer. -/
structure TimerInv (s : State) : Prop where
  /-- R153: once START has run the timer is armed between operations, and not before. -/
  armedIff : s.timerArmed = s.running
  /-- The load is the last duration armed, 0 before the first. -/
  load : s.timerLoad = s.timerTrace.getLastD 0
  /-- Every duration armed lies between T_FLOOR and TIMER_MAX. -/
  range : ∀ d ∈ s.timerTrace, tFloor ≤ d ∧ d ≤ s.cfg.timerMax
  /-- Something was armed exactly when START has run. -/
  started : s.timerTrace = [] ↔ s.running = false

/-- R45 to R47, R147, R185, R221: the lines between operations. -/
structure WireInv (s : State) : Prop where
  /-- The levels are those the wire trace leaves. -/
  replay : s.lines = s.wireTrace.foldl Lines.drive .reset
  /-- The clock idles high. -/
  idle : s.lines.clk = true
  /-- Outputs are enabled only in a phase that shows a frame. -/
  blankDark : s.lines.oe = true → s.phase ≠ .blank
  /-- Before START nothing has moved. -/
  still : s.running = false → s.wireTrace = [] ∧ s.phase = .blank

/-- The invariant of the block: it holds after reset and every step keeps it. -/
structure BlockInv (s : State) : Prop where
  config : s.cfg.wf
  memory : Memory.wf s.pinMem
  snap : SnapInv s
  anim : AnimInv s
  timer : TimerInv s
  wire : WireInv s

/-! ## The discipline of the wires -/

/-- R185, R227: CLK and DATA move only while OE = 0, and DATA changes only while CLK = 1. -/
def eventSafe (l : Lines) : WireEvent → Bool
  | .clk _ => !l.oe
  | .data level => !l.oe && (l.clk || l.data == level)
  | .oe _ => true
  | .delay => true

/-- Every event of a trace that starts from the levels `l` is safe. -/
def traceSafe (l : Lines) : List WireEvent → Bool
  | [] => true
  | e :: es => eventSafe l e && traceSafe (l.drive e) es

/-- R184: the falling CLK edges of a trace that starts from the levels `l`. -/
def fallingEdges (l : Lines) : List WireEvent → Nat
  | [] => 0
  | e :: es => (if l.clk ∧ e = .clk false then 1 else 0) + fallingEdges (l.drive e) es

/-! ## Counting bits -/

/-- The number of set bits of a word (spec/95_test_vectors.md S1). -/
def popcount (w : Word) : Nat := (List.range wordBits).countP (fun k => w.getLsbD k)

end Sys2Proof.Machine
end

