-- ==== Sys2Proof/Certificates/Slice0/Obligations.lean ====
section
/-! DEFINITION. The statements for the provers, in terms of the machine of Sys2Proof/Machine. A
docstring names the rule or section of spec/ a statement formalises, and the log entry where it
rests on a choice of the model's. -/

open Sys2Proof Sys2Proof.Machine

/-! ## Encoding (spec/30_encoding.md) -/

/-- Sections 1 and 3: decoding the word of any operation the decoder can accept gives it back. -/
def Obligations.DecodeOfEncode : Prop :=
  ∀ (c : Config) (i : Instr), i.wellFormed c = true → decode c (encode i) = .ok i

/-- Sections 1 and 3: a word has one meaning, and no bit of it is dropped. -/
def Obligations.EncodeOfDecode : Prop :=
  ∀ (c : Config) (w : Command) (i : Instr),
    decode c w = .ok i → encode i = w ∧ i.wellFormed c = true

/-- R91: a reserved op code is refused, and so is any word with a nonzero reserved bit; the masks
and matches are the literals of section 3's table. -/
def Obligations.DecodeRefusesReserved : Prop :=
  ∀ (c : Config) (w : Command),
    let op := w.toNat / 2 ^ 60
    (op = 0 ∨ 7 ≤ op → decode c w = .error .reservedOpcode) ∧
    (op = 1 → w &&& 0xF800000000000000 ≠ 0x1000000000000000 →
      decode c w = .error .reservedBitsNonzero) ∧
    (op = 2 → w &&& 0xFFFFFFFFFFFFFF00 ≠ 0x2000000000000000 →
      decode c w = .error .reservedBitsNonzero) ∧
    (op = 3 → w &&& 0xFFFFFFFF00000000 ≠ 0x3000000000000000 →
      decode c w = .error .reservedBitsNonzero) ∧
    (op = 4 → w &&& 0xFFFFFFFFFFFFFFFF ≠ 0x4000000000000000 →
      decode c w = .error .reservedBitsNonzero) ∧
    (op = 5 → w &&& 0xFFFFFFFF00000000 ≠ 0x5000000000000000 →
      decode c w = .error .reservedBitsNonzero) ∧
    (op = 6 → w &&& 0xFFFFFFFFFFF8F000 ≠ 0x6000000000000000 →
      decode c w = .error .reservedBitsNonzero)

/-- R82 to R87: a word that matches a row of the table decodes to that operation with every field
read at its place, but for the two range checks of R90. -/
def Obligations.DecodeReadsEveryField : Prop :=
  ∀ (c : Config) (w : Command),
    (w &&& 0xF800000000000000 = 0x1000000000000000 →
      ∃ v dp a, decode c w = .ok (.setDigits v dp a) ∧
        (∀ i : Fin 6, (v.get i).toNat = w.toNat / 2 ^ (4 * i.val) % 2 ^ 4) ∧
        (∀ j : Fin 5, dp.get j = w.getLsbD (24 + j.val)) ∧
        (∀ i : Fin 6, (a.get i).toNat = w.toNat / 2 ^ (29 + 5 * i.val) % 2 ^ 5)) ∧
    (w &&& 0xFFFFFFFFFFFFFF00 = 0x2000000000000000 →
      decode c w = .ok (.setBrightness (BitVec.ofNat 8 w.toNat))) ∧
    (w &&& 0xFFFFFFFF00000000 = 0x3000000000000000 →
      decode c w = .ok (.setAutoBrightness (BitVec.ofNat 32 w.toNat))) ∧
    (w = 0x4000000000000000 → decode c w = .ok .timerExpiry) ∧
    (w &&& 0xFFFFFFFF00000000 = 0x5000000000000000 →
      decode c w =
        if max (w.toNat % 2 ^ 32) 500 ≤ c.timerMax then
          .ok (.start (BitVec.ofNat 32 w.toNat))
        else .error .delayOutOfRange) ∧
    (w &&& 0xFFFFFFFFFFF8F000 = 0x6000000000000000 →
      let row := w.toNat / 2 ^ 16 % 2 ^ 3
      let col := w.toNat / 2 ^ 8 % 2 ^ 4
      decode c w =
        if row ≤ 5 ∧ col ≤ 9 ∨ row = 6 ∧ col ≤ 4 then
          .ok (.loadPin (BitVec.ofNat 3 row) (BitVec.ofNat 4 col) (BitVec.ofNat 8 w.toNat))
        else .error .pinIndexOutOfRange)

/-- Section 5: words written out from the formats decode to the operations they stand for. -/
def Obligations.ExampleWordsDecode : Prop :=
  ∀ c : Config, c.wf →
    decode c 0x100000000A654321 =
      .ok (.setDigits ⟨1, 2, 3, 4, 5, 6⟩ ⟨false, true, false, true, false⟩ (.fill 0)) ∧
    decode c 0x17C0000000954321 =
      .ok (.setDigits ⟨1, 2, 3, 4, 5, 9⟩ (.fill false) ⟨0, 0, 0, 0, 0, 31⟩) ∧
    decode c 0x2000000000000064 = .ok (.setBrightness 100) ∧
    decode c 0x30000000000004D2 = .ok (.setAutoBrightness 1234) ∧
    decode c 0x4000000000000000 = .ok .timerExpiry ∧
    decode c 0x50000000000001F4 = .ok (.start 500) ∧
    decode c 0x6000000000050982 = .ok (.loadPin 5 9 130) ∧
    decode c 0x6000000000060400 = .ok (.loadPin 6 4 0)

/-! ## Steps (spec/20_memory.md R70, R71; 60_exceptions.md; 70_reset_and_hazards.md) -/

/-- R71: when the next event is a word that decodes, the step is that whole operation. The list of
events to come is the model's own (log entry 3). -/
def Obligations.StepRunsDecodedCommand : Prop :=
  ∀ (s : State) (w : Command) (rest : List Event) (i : Instr),
    s.cfg.wf → s.inbox = .command w :: rest → decode s.cfg w = .ok i →
    step s = exec i { s with inbox := rest }

/-- 60_exceptions.md section 1: a word that does not decode changes nothing but the sticky mark. That
the new reason replaces one already in the mark is the model's choice (log entry 6). -/
def Obligations.StepMarksUndecodableWord : Prop :=
  ∀ (s : State) (w : Command) (rest : List Event) (r : RefuseReason),
    s.cfg.wf → s.inbox = .command w :: rest → decode s.cfg w = .error r →
    step s = .next { s with inbox := rest, refused := some r }

/-- Section 1: a reset event, whatever the block was doing, puts every register to the value of
R220's table, and the reset plan is PLAN(0, 0). The model's choices: that the parameters and the
events still to come stay is log entry 9 (the fields themselves are entries 1 and 3), and that an
all-zero table is the empty list is log entry 5. -/
def Obligations.ResetEventRestoresEveryRegister : Prop :=
  ∀ (s : State) (rest : List Event), s.cfg.wf → s.inbox = .reset :: rest →
    step s = .next
      { cfg := s.cfg
        lastVal := ⟨15, 15, 15, 15, 15, 15⟩
        lastDp := ⟨false, false, false, false, false⟩
        lastAnim := ⟨0, 0, 0, 0, 0, 0⟩
        prevDigit := ⟨15, 15, 15, 15, 15, 15⟩
        animStep := 0
        bMode := .fixed
        bright := 0
        snap :=
          { old := ⟨0, 0⟩
            new := ⟨0, 0⟩
            plan := ⟨s.cfg.pwmMin / 2, s.cfg.pwmMin / 2,
              s.cfg.refreshPeriod - 2 * (s.cfg.pwmMin / 2)⟩
            b := 0 }
        phase := .blank
        running := false
        timerArmed := false
        timerLoad := 0
        lines := ⟨true, false, false⟩
        pinMem := []
        wireTrace := []
        timerTrace := []
        pubCount := 0
        refused := none
        inbox := rest }

/-- The model's choice (log entry 3): with no event to come the timer agent takes its step if it has
one, and otherwise the block is idle. -/
def Obligations.StepWithNothingToCome : Prop :=
  ∀ s : State, s.cfg.wf → s.inbox = [] →
    (s.timerArmed = true → step s = exec .timerExpiry s) ∧
    (s.timerArmed = false → step s = .next s)

/-- The model's choice (log entries 1 and 4): the only stops are a configuration that breaks R11 and
a TIMER_EXPIRY word with no armed timer. -/
def Obligations.StepStopsOnlyWithoutTimer : Prop :=
  ∀ (s : State) (r : Refusal), step s = .refused r →
    (r = .configIllFormed ∧ ¬ s.cfg.wf) ∨
    (r = .timerNotArmed ∧ s.timerArmed = false ∧
      ∃ rest, s.inbox = .command 0x4000000000000000 :: rest)

/-- 00_scope.md section 4: no block is built from a configuration that breaks a constraint, and a
well-formed one is built at its reset state. That a state which carries an ill-formed configuration
answers a step with the refusal configIllFormed is the model's choice (log entry 1). -/
def Obligations.BuildRefusesIllFormedConfig : Prop :=
  ∀ c : Config,
    (¬ (c.pwmMin ≤ c.refreshPeriod ∧ max c.refreshPeriod 500 ≤ c.timerMax ∧
        1 ≤ c.maxBrightness ∧ 1 ≤ c.animN ∧ c.animN ≤ 31) →
      State.build c = none ∧
      ∀ s : State, s.cfg = c → step s = .refused .configIllFormed) ∧
    ((c.pwmMin ≤ c.refreshPeriod ∧ max c.refreshPeriod 500 ≤ c.timerMax ∧
        1 ≤ c.maxBrightness ∧ 1 ≤ c.animN ∧ c.animN ≤ 31) →
      State.build c = some (State.resetWith c))

/-- R153: once START has run the block runs forever; nothing but a reset disarms the timer between
operations or clears `running`. -/
def Obligations.RunningBlockNeverStops : Prop :=
  ∀ (k : Nat) (s : State), BlockInv s → s.running = true → s.noReset →
    ∃ t, runFrom k s = .next t ∧ t.running = true ∧ t.timerArmed = true

/-- R202: the mark is sticky: only a reset clears it. -/
def Obligations.RefusedMarkIsSticky : Prop :=
  ∀ (k : Nat) (s t : State), ¬ s.clean → s.noReset → runFrom k s = .next t → ¬ t.clean

/-! ## Bit Encoder (spec/40_bit_encoder.md) and pin memory (20_memory.md) -/

/-- R63: the bit each pin number names, and that the others name none. -/
def Obligations.PinToBitMap : Prop :=
  ∀ p : Pin,
    (1 ≤ p.toNat → p.toNat ≤ 32 → pinToBit p = some (.chip0, p.toNat - 1)) ∧
    (101 ≤ p.toNat → p.toNat ≤ 132 → pinToBit p = some (.chip1, p.toNat - 101)) ∧
    (p.toNat = 0 ∨ (33 ≤ p.toNat ∧ p.toNat ≤ 100) ∨ 133 ≤ p.toNat → pinToBit p = none)

/-- R101: bit `k` of a chip's word is set by ENCODE exactly when a digit below 10 or a set decimal
point reads a pin that names it. -/
def Obligations.EncodeSetsExactlyTheLitBits : Prop :=
  ∀ (m : List Host.Cell) (dig : Six Digit) (dp : Five Bool) (k : Nat), k < 32 →
    ((encodeFrame m dig dp).chip0.getLsbD k = true ↔
      (∃ i : Fin 6, (dig.get i).toNat ≤ 9 ∧
        pinToBit (pinRead m i.val (dig.get i).toNat) = some (.chip0, k)) ∨
      (∃ j : Fin 5, dp.get j = true ∧ pinToBit (pinRead m 6 j.val) = some (.chip0, k))) ∧
    ((encodeFrame m dig dp).chip1.getLsbD k = true ↔
      (∃ i : Fin 6, (dig.get i).toNat ≤ 9 ∧
        pinToBit (pinRead m i.val (dig.get i).toNat) = some (.chip1, k)) ∨
      (∃ j : Fin 5, dp.get j = true ∧ pinToBit (pinRead m 6 j.val) = some (.chip1, k)))

/-- 95_test_vectors.md S1: with a table whose digit entries all name a bit and differ between
positions, and no decimal point, one bit is set for each position that is not blank. -/
def Obligations.OneBitPerNonBlankDigit : Prop :=
  ∀ (m : List Host.Cell) (dig : Six Digit),
    (∀ (i : Fin 6) (d : Nat), d ≤ 9 → pinToBit (pinRead m i.val d) ≠ none) →
    (∀ (i j : Fin 6) (d e : Nat), i ≠ j → d ≤ 9 → e ≤ 9 →
      pinRead m i.val d ≠ pinRead m j.val e) →
    popcount (encodeFrame m dig (.fill false)).chip0 +
      popcount (encodeFrame m dig (.fill false)).chip1 =
      (List.finRange 6).countP (fun i => decide ((dig.get i).toNat ≤ 9))

/-- 40_bit_encoder.md section 2: LOAD_PIN, all three cases: it writes the one entry, or leaves the
mark TableImmutable or PinIndexOutOfRange; nothing else changes. The model's choices: the canonical
form of the table (log entry 5), and that the new reason replaces one already in the mark (log
entry 6). -/
def Obligations.LoadPinWritesOneEntry : Prop :=
  ∀ (s : State) (row : BitVec 3) (col : BitVec 4) (pin : Pin),
    let valid := fun (r c : Nat) => r ≤ 5 ∧ c ≤ 9 ∨ r = 6 ∧ c ≤ 4
    (Memory.wf s.pinMem → valid row.toNat col.toNat → s.running = false →
      ∃ t, exec (.loadPin row col pin) s = .next t ∧
        pinRead t.pinMem row.toNat col.toNat = pin ∧
        (∀ r c, valid r c → ¬ (r = row.toNat ∧ c = col.toNat) →
          pinRead t.pinMem r c = pinRead s.pinMem r c) ∧
        Memory.wf t.pinMem ∧ t = { s with pinMem := t.pinMem }) ∧
    (valid row.toNat col.toNat → s.running = true →
      exec (.loadPin row col pin) s = .next { s with refused := some .tableImmutable }) ∧
    (¬ valid row.toNat col.toNat →
      exec (.loadPin row col pin) s = .next { s with refused := some .pinIndexOutOfRange })

/-- 20_memory.md section 5: after START no run without a reset changes the table. -/
def Obligations.TableFixedOnceRunning : Prop :=
  ∀ (k : Nat) (s t : State), s.running = true → s.noReset → runFrom k s = .next t →
    t.pinMem = s.pinMem

/-! ## Brightness/Timing Converter (spec/41_timing_converter.md) -/

/-- R124: PLAN, written out. -/
def Obligations.PlanFormula : Prop :=
  ∀ (c : Config) (b s : Nat),
    let pwm := max c.pwmMin (c.refreshPeriod * b / c.maxBrightness)
    let raw := pwm * (c.animN - s) / c.animN
    let so :=
      if s = 0 then pwm / 2
      else if raw < c.tVis then 0
      else if pwm - raw < c.tVis then pwm
      else raw
    let sn := if s = 0 then pwm / 2 else pwm - so
    plan c b s = { showOld := so, showNew := sn, blankTime := c.refreshPeriod - so - sn }

/-- Section 1, laws 1 and 2 of PLAN, and that no subtraction in it is cut off at zero. -/
def Obligations.PlanSumsToRefreshPeriod : Prop :=
  ∀ (c : Config) (b s : Nat), c.wf → b ≤ c.maxBrightness → s ≤ c.animN →
    let p := plan c b s
    let pwm := max c.pwmMin (c.refreshPeriod * b / c.maxBrightness)
    p.showOld + p.showNew + p.blankTime = c.refreshPeriod ∧
    (1 ≤ s → p.showOld + p.showNew = pwm) ∧
    (s = 0 → p.showOld = p.showNew ∧
      (p.showOld + p.showNew = pwm ∨ p.showOld + p.showNew + 1 = pwm))

/-- Section 1, laws 3 and 4 of PLAN: along a crossfade ShowOld never grows and ShowNew never
shrinks, and at the last step only the new frame is left. -/
def Obligations.PlanMonotoneInStep : Prop :=
  ∀ (c : Config) (b s s' : Nat), c.wf → 1 ≤ s → s ≤ s' → s' ≤ c.animN →
    (plan c b s').showOld ≤ (plan c b s).showOld ∧
    (plan c b s).showNew ≤ (plan c b s').showNew ∧
    (1 ≤ c.tVis → (plan c b c.animN).showOld = 0 ∧
      (plan c b c.animN).showNew = max c.pwmMin (c.refreshPeriod * b / c.maxBrightness))

/-- R130: SET_BRIGHTNESS. -/
def Obligations.SetBrightnessResult : Prop :=
  ∀ (s : State) (pct : BitVec 8),
    let b := min pct.toNat s.cfg.maxBrightness
    exec (.setBrightness pct) s = .next
      { s with
        bMode := .fixed
        bright := b
        snap :=
          { old := s.snap.old
            new := s.snap.new
            plan := plan s.cfg b s.animStep.toNat
            b := b }
        pubCount := s.pubCount + 1 }

/-- R131: SET_AUTO_BRIGHTNESS, for whatever law LUX_TO_B is (log entry 2). -/
def Obligations.SetAutoBrightnessResult : Prop :=
  ∀ (s : State) (lux : BitVec 32),
    let b := min (Config.luxToB lux) s.cfg.maxBrightness
    exec (.setAutoBrightness lux) s = .next
      { s with
        bMode := .auto
        bright := b
        snap :=
          { old := s.snap.old
            new := s.snap.new
            plan := plan s.cfg b s.animStep.toNat
            b := b }
        pubCount := s.pubCount + 1 }

/-- R89: an operand the source's range excludes acts as its clamp: an animation step above ANIM_N as
ANIM_N, a percentage above MAXBRIGHTNESS as MAXBRIGHTNESS, a digit of 10 or more as blank. -/
def Obligations.OutOfRangeOperandsActClamped : Prop :=
  ∀ s : State, s.cfg.wf →
    (∀ (v : Six Digit) (dp : Five Bool) (a : Six AnimStep),
      exec (.setDigits v dp a) s =
        exec (.setDigits v dp
          (a.map (fun x => if s.cfg.animN < x.toNat then BitVec.ofNat 5 s.cfg.animN else x))) s) ∧
    (∀ pct : BitVec 8, s.cfg.maxBrightness < pct.toNat →
      exec (.setBrightness pct) s =
        exec (.setBrightness (BitVec.ofNat 8 s.cfg.maxBrightness)) s) ∧
    (∀ (v : Six Digit) (dp : Five Bool),
      encodeFrame s.pinMem v dp =
        encodeFrame s.pinMem (v.map (fun d => if 10 ≤ d.toNat then 15 else d)) dp)

/-! ## Frame State Machine (spec/42_frame_fsm.md) -/

/-- 42_frame_fsm.md section 2: START, all three cases. That the new reason replaces one already in
the mark is the model's choice (log entry 6). -/
def Obligations.StartResult : Prop :=
  ∀ (s : State) (delay : BitVec 32),
    let d := max delay.toNat 500
    (d ≤ s.cfg.timerMax → s.running = false →
      exec (.start delay) s = .next
        { s with
          running := true
          timerArmed := true
          timerLoad := d
          timerTrace := s.timerTrace ++ [d] }) ∧
    (d ≤ s.cfg.timerMax → s.running = true →
      exec (.start delay) s = .next { s with refused := some .alreadyStarted }) ∧
    (s.cfg.timerMax < d →
      exec (.start delay) s = .next { s with refused := some .delayOutOfRange })

/-- R143, with R144's ENTER written out: TIMER_EXPIRY with an armed timer, every register it writes
and no other. `frameEvents` is R183's SHIFT_FRAME. -/
def Obligations.TimerExpiryResult : Prop :=
  ∀ s : State, s.timerArmed = true →
    let S := s.snap
    let c : Phase := match s.phase with | .showOld => .showNew | .showNew => .blank | .blank => .showOld
    let c' : Phase := if c = .blank ∧ S.plan.blankTime < 500 then .showOld else c
    let p : Phase := if c' = .showOld ∧ S.plan.showOld < 1000 then .showNew else c'
    let field := match p with
      | .showOld => S.plan.showOld | .showNew => S.plan.showNew | .blank => S.plan.blankTime
    let frame := match p with | .showOld => some S.old | .showNew => some S.new | .blank => none
    let raise : Bool := p ≠ .blank ∧ S.b ≠ 0
    exec .timerExpiry s = .next
      { s with
        phase := p
        timerArmed := true
        timerLoad := max field 500
        timerTrace := s.timerTrace ++ [max field 500]
        lines :=
          match frame with
          | some f =>
            { clk := true
              data := f.chip0.getLsbD (match s.cfg.bitOrder with | .msbFirst => 0 | .lsbFirst => 31)
              oe := raise }
          | none => { clk := s.lines.clk, data := s.lines.data, oe := false }
        wireTrace :=
          s.wireTrace ++ [.oe false] ++
            (match frame with | some f => frameEvents s.cfg.bitOrder f | none => []) ++
            (if raise then [.oe true] else []) }

/-- The model's choice (log entry 4): without an armed timer the event is no step of the block. -/
def Obligations.TimerExpiryNeedsArmedTimer : Prop :=
  ∀ s : State, s.timerArmed = false → exec .timerExpiry s = .refused .timerNotArmed

/-- R147: the level of OE after an expiry. -/
def Obligations.OutputEnableAfterExpiry : Prop :=
  ∀ s t : State, exec .timerExpiry s = .next t →
    (t.lines.oe = true ↔ t.phase ≠ .blank ∧ s.snap.b ≠ 0)

/-- Section 3: the floor changes only a ShowNew duration; the other two are entered only when long
enough. -/
def Obligations.FloorRaisesOnlyShowNew : Prop :=
  ∀ s t : State, exec .timerExpiry s = .next t →
    (t.phase = .showOld → 1000 ≤ s.snap.plan.showOld ∧ t.timerLoad = s.snap.plan.showOld) ∧
    (t.phase = .blank → 500 ≤ s.snap.plan.blankTime ∧ t.timerLoad = s.snap.plan.blankTime) ∧
    (t.phase = .showNew → t.timerLoad = max s.snap.plan.showNew 500)

/-- Section 4, law 3: two consecutive expiries never both enter Blank, whatever operations come
between them. -/
def Obligations.NoTwoConsecutiveBlanks : Prop :=
  ∀ (ops : List Instr) (s t u v : State), .timerExpiry ∉ ops →
    exec .timerExpiry s = .next t → t.phase = .blank →
    execAll ops t = .next u → exec .timerExpiry u = .next v → v.phase ≠ .blank

/-- 70_reset_and_hazards.md section 1: until a START word comes the lines do not move, the phase
stays and nothing is armed, whatever else the host sends. -/
def Obligations.WiresStillUntilStart : Prop :=
  ∀ (k : Nat) (s t : State), s.timerArmed = false → s.noReset →
    (∀ w d, .command w ∈ s.inbox → decode s.cfg w ≠ .ok (.start d)) →
    runFrom k s = .next t →
    t.lines = s.lines ∧ t.wireTrace = s.wireTrace ∧ t.phase = s.phase ∧
    t.running = s.running ∧ t.timerArmed = false ∧ t.timerTrace = s.timerTrace

/-- Section 4: the phases two successive expiries enter under one snapshot. -/
def Obligations.SteadyCycles : Prop :=
  ∀ s t u : State, exec .timerExpiry s = .next t → exec .timerExpiry t = .next u →
    let so := s.snap.plan.showOld
    let bt := s.snap.plan.blankTime
    (1000 ≤ so → 500 ≤ bt →
      (t.phase = .showOld ∧ u.phase = .showNew) ∨ (t.phase = .showNew ∧ u.phase = .blank) ∨
      (t.phase = .blank ∧ u.phase = .showOld)) ∧
    (1000 ≤ so → bt < 500 →
      (t.phase = .showOld ∧ u.phase = .showNew) ∨ (t.phase = .showNew ∧ u.phase = .showOld)) ∧
    (so < 1000 → 500 ≤ bt →
      (t.phase = .showNew ∧ u.phase = .blank) ∨ (t.phase = .blank ∧ u.phase = .showNew)) ∧
    (so < 1000 → bt < 500 → t.phase = .showNew ∧ u.phase = .showNew)

/-- 70_reset_and_hazards.md section 4: the length of a three-phase cycle under one snapshot, from
whichever phase it is counted. -/
def Obligations.ThreePhaseCycleLength : Prop :=
  ∀ s t u v : State, BlockInv s →
    1000 ≤ s.snap.plan.showOld → 500 ≤ s.snap.plan.blankTime →
    exec .timerExpiry s = .next t → exec .timerExpiry t = .next u → exec .timerExpiry u = .next v →
    v.phase = s.phase ∧
    t.timerLoad + u.timerLoad + v.timerLoad =
      s.cfg.refreshPeriod + (500 - s.snap.plan.showNew)

/-- 70_reset_and_hazards.md section 4: the length of the cycles that skip ShowOld, Blank or both,
from whichever of its phases it is counted: a skipped phase shortens the cycle by its field, and the
floor lengthens it by what ShowNew lacks. -/
def Obligations.SkippedPhaseCycleLength : Prop :=
  ∀ s t u : State, BlockInv s →
    exec .timerExpiry s = .next t → exec .timerExpiry t = .next u →
    let so := s.snap.plan.showOld
    let bt := s.snap.plan.blankTime
    let lack := 500 - s.snap.plan.showNew
    (1000 ≤ so → bt < 500 → s.phase ≠ .blank →
      u.phase = s.phase ∧ t.timerLoad + u.timerLoad + bt = s.cfg.refreshPeriod + lack) ∧
    (so < 1000 → 500 ≤ bt → s.phase ≠ .showOld →
      u.phase = s.phase ∧ t.timerLoad + u.timerLoad + so = s.cfg.refreshPeriod + lack) ∧
    (so < 1000 → bt < 500 → s.phase = .showNew →
      t.phase = .showNew ∧ t.timerLoad + so + bt = s.cfg.refreshPeriod + lack)

/-- 95_test_vectors.md S4: while the brightness is 0 in every snapshot an expiry reads, OE is never
driven high; between expiries the brightness may be anything. -/
def Obligations.DarkRunNeverRaisesOutput : Prop :=
  ∀ (k : Nat) (s t : State),
    (∀ j u, j < k → runFrom j s = .next u → u.expiresNext → u.snap.b = 0) →
    .oe true ∉ s.wireTrace → runFrom k s = .next t → .oe true ∉ t.wireTrace

/-! ## Transition Buffer (spec/43_transition_buffer.md) -/

/-- R168: SET_DIGITS, the no-op and the change, every register it writes and no other. -/
def Obligations.SetDigitsResult : Prop :=
  ∀ (s : State) (v : Six Digit) (dp : Five Bool) (a : Six AnimStep),
    let a' := fun i : Fin 6 => min (a.get i).toNat s.cfg.animN
    let unchanged := v = s.lastVal ∧ dp = s.lastDp ∧ ∀ i, a' i = (s.lastAnim.get i).toNat
    (unchanged → exec (.setDigits v dp a) s = .next s) ∧
    (¬ unchanged → ∃ t, exec (.setDigits v dp a) s = .next t ∧
      t.lastVal = v ∧ t.lastDp = dp ∧ (∀ i, (t.lastAnim.get i).toNat = a' i) ∧
      (∀ i, t.prevDigit.get i =
        if v.get i ≠ s.lastVal.get i then s.lastVal.get i else s.prevDigit.get i) ∧
      (∀ i, a' i ≤ t.animStep.toNat) ∧ (∃ i, a' i = t.animStep.toNat) ∧
      t.snap.new = encodeFrame s.pinMem v dp ∧
      (t.animStep = 0 → t.snap.old = t.snap.new) ∧
      (t.animStep ≠ 0 → ∃ oldDig : Six Digit,
        (∀ i, oldDig.get i = if a' i = 0 then v.get i else t.prevDigit.get i) ∧
        t.snap.old = encodeFrame s.pinMem oldDig dp) ∧
      t.snap.plan = plan s.cfg s.bright t.animStep.toNat ∧
      t.snap.b = s.bright ∧
      t.pubCount = s.pubCount + 1 ∧
      t = { s with
        lastVal := t.lastVal
        lastDp := t.lastDp
        lastAnim := t.lastAnim
        prevDigit := t.prevDigit
        animStep := t.animStep
        snap := t.snap
        pubCount := t.pubCount })

/-- 95_test_vectors.md S6: a second identical SET_DIGITS changes nothing, and the two publish at most
once. -/
def Obligations.SetDigitsIdempotent : Prop :=
  ∀ (s t : State) (v : Six Digit) (dp : Five Bool) (a : Six AnimStep),
    exec (.setDigits v dp a) s = .next t →
    exec (.setDigits v dp a) t = .next t ∧ t.pubCount ≤ s.pubCount + 1

/-- 95_test_vectors.md S8: along a crossfade sweep showOld does not grow, showNew does not shrink and
their sum stays. -/
def Obligations.CrossfadeSweep : Prop :=
  ∀ (s t u : State) (v : Six Digit) (dp : Five Bool) (x y : AnimStep),
    BlockInv s → 1 ≤ x.toNat → x.toNat ≤ y.toNat → y.toNat ≤ s.cfg.animN →
    exec (.setDigits v dp (.fill x)) s = .next t →
    exec (.setDigits v dp (.fill y)) t = .next u →
    u.snap.plan.showOld ≤ t.snap.plan.showOld ∧
    t.snap.plan.showNew ≤ u.snap.plan.showNew ∧
    t.snap.plan.showOld + t.snap.plan.showNew = u.snap.plan.showOld + u.snap.plan.showNew

/-! ## Serial Link and observer (spec/44_serial_link.md) -/

/-- R181: SHIFT_WORD's events, one by one, and the idle level at the end; R182: which bit is the
k-th. -/
def Obligations.ShiftWordEvents : Prop :=
  ∀ (o : BitOrder) (w : Word),
    (wordEvents o w).length = 161 ∧
    (∀ k, k < 32 →
      let i := match o with | .msbFirst => 31 - k | .lsbFirst => k
      (wordEvents o w)[5 * k]? = some (.clk true) ∧
      (wordEvents o w)[5 * k + 1]? = some (.data (w.getLsbD i)) ∧
      (wordEvents o w)[5 * k + 2]? = some .delay ∧
      (wordEvents o w)[5 * k + 3]? = some (.clk false) ∧
      (wordEvents o w)[5 * k + 4]? = some .delay) ∧
    (wordEvents o w)[160]? = some (.clk true)

/-- Section 2: the events and falling edges of a word, a frame and an expiry. -/
def Obligations.SerialEventCounts : Prop :=
  (∀ (o : BitOrder) (w : Word) (l : Lines), fallingEdges l (wordEvents o w) = 32) ∧
  (∀ (o : BitOrder) (f : BitFrame) (l : Lines),
    frameEvents o f = wordEvents o f.chip1 ++ wordEvents o f.chip0 ∧
    (frameEvents o f).length = 322 ∧ fallingEdges l (frameEvents o f) = 64) ∧
  (∀ s t : State, exec .timerExpiry s = .next t →
    t.wireTrace.length =
      s.wireTrace.length +
        (if t.phase = .blank then 1 else if s.snap.b = 0 then 323 else 324))

/-- Section 3: what the driver chain holds and shows after an expiry. -/
def Obligations.ObserverReceivesFrame : Prop :=
  ∀ s t : State, exec .timerExpiry s = .next t →
    let o := Observer.watch t.wireTrace
    (∀ f, (t.phase = .showOld ∧ f = s.snap.old ∨ t.phase = .showNew ∧ f = s.snap.new) →
      (s.cfg.bitOrder = .msbFirst → o.chain = f.chip1 ++ f.chip0) ∧
      (s.cfg.bitOrder = .lsbFirst → ∀ k, k < 32 →
        o.chain.getLsbD k = f.chip0.getLsbD (31 - k) ∧
        o.chain.getLsbD (32 + k) = f.chip1.getLsbD (31 - k)) ∧
      o.shown = if s.snap.b = 0 then 0 else o.chain) ∧
    (t.phase = .blank →
      o.shown = 0 ∧ o.chain = (Observer.watch s.wireTrace).chain)

/-- The whole path: after a SET_DIGITS that changes something and the expiry that shows its frame,
the driver outputs lit are those of the non-blank digits and the set decimal points. -/
def Obligations.DisplayShowsRequestedDigits : Prop :=
  ∀ (s t u : State) (v : Six Digit) (dp : Five Bool) (a : Six AnimStep),
    s.cfg.bitOrder = .msbFirst → s.bright ≠ 0 →
    exec (.setDigits v dp a) s = .next t → t.pubCount ≠ s.pubCount →
    exec .timerExpiry t = .next u → u.phase = .showNew →
    ∀ p : Pin, (Observer.watch u.wireTrace).lit p = true ↔
      (1 ≤ p.toNat ∧ p.toNat ≤ 32 ∨ 101 ≤ p.toNat ∧ p.toNat ≤ 132) ∧
      ((∃ i : Fin 6, (v.get i).toNat ≤ 9 ∧ pinRead s.pinMem i.val (v.get i).toNat = p) ∨
        (∃ j : Fin 5, dp.get j = true ∧ pinRead s.pinMem 6 j.val = p))

/-- R185 and 70_reset_and_hazards.md section 3: in every step CLK and DATA move only while OE is low
and DATA changes only while CLK is high. -/
def Obligations.WiresNeverShiftThrough : Prop :=
  ∀ s t : State, BlockInv s → traceSafe .reset s.wireTrace = true → step s = .next t →
    traceSafe .reset t.wireTrace = true

/-! ## Whole-machine rules (spec/10_state.md, 20_memory.md, 60_exceptions.md) -/

/-- 10_state.md section 7: which operations can write each register. -/
def Obligations.AccessTable : Prop :=
  ∀ (i : Instr) (s t : State), exec i s = .next t →
    let digits := ∃ v dp a, i = .setDigits v dp a
    let brightness := (∃ pct, i = .setBrightness pct) ∨ (∃ lux, i = .setAutoBrightness lux)
    (¬ digits → t.lastVal = s.lastVal ∧ t.lastDp = s.lastDp ∧ t.lastAnim = s.lastAnim ∧
      t.prevDigit = s.prevDigit ∧ t.animStep = s.animStep) ∧
    (¬ brightness → t.bMode = s.bMode ∧ t.bright = s.bright) ∧
    (¬ digits → ¬ brightness → t.snap = s.snap ∧ t.pubCount = s.pubCount) ∧
    (i ≠ .timerExpiry → t.phase = s.phase ∧ t.lines = s.lines ∧ t.wireTrace = s.wireTrace) ∧
    ((∀ d, i ≠ .start d) → t.running = s.running) ∧
    ((∀ d, i ≠ .start d) → i ≠ .timerExpiry →
      t.timerArmed = s.timerArmed ∧ t.timerLoad = s.timerLoad ∧ t.timerTrace = s.timerTrace) ∧
    ((∀ r c p, i ≠ .loadPin r c p) → t.pinMem = s.pinMem) ∧
    ((∀ d, i ≠ .start d) → (∀ r c p, i ≠ .loadPin r c p) → t.refused = s.refused) ∧
    t.cfg = s.cfg ∧ t.inbox = s.inbox

/-- 20_memory.md section 3: the snapshot changes only by a publish, which counts once and writes all
four fields: the brightness in force, its plan, and the frames, which SET_DIGITS computes from the
registers it leaves and a brightness operation keeps. -/
def Obligations.PublishIsWhole : Prop :=
  ∀ (i : Instr) (s t : State), exec i s = .next t →
    (t.pubCount = s.pubCount ∧ t.snap = s.snap) ∨
    (t.pubCount = s.pubCount + 1 ∧ t.snap.b = t.bright ∧
      t.snap.plan = plan t.cfg t.bright t.animStep.toNat ∧
      (((∃ v dp a, i = .setDigits v dp a) ∧
          t.snap.new = encodeFrame t.pinMem t.lastVal t.lastDp ∧
          ∃ oldDig : Six Digit,
            (∀ p, oldDig.get p =
              if t.lastAnim.get p = 0 then t.lastVal.get p else t.prevDigit.get p) ∧
            t.snap.old = encodeFrame t.pinMem oldDig t.lastDp) ∨
        (((∃ pct, i = .setBrightness pct) ∨ (∃ lux, i = .setAutoBrightness lux)) ∧
          t.snap.new = s.snap.new ∧ t.snap.old = s.snap.old)))

/-- R132: nothing an operation does depends on `bMode`. -/
def Obligations.BrightnessFormNeverRead : Prop :=
  ∀ (i : Instr) (s t : State) (m : BMode), exec i s = .next t →
    ∃ t', exec i { s with bMode := m } = .next t' ∧ { t' with bMode := t.bMode } = t

/-- R67: what an expiry does depends on the snapshot, the phase and the parameters alone: two states
that agree on those enter the same phase, arm the same duration and send the same events. -/
def Obligations.ExpiryReadsOnlySnapshotAndPhase : Prop :=
  ∀ s s' t : State, s'.cfg = s.cfg → s'.snap = s.snap → s'.phase = s.phase →
    s'.timerArmed = true → exec .timerExpiry s = .next t →
    ∃ t' es, exec .timerExpiry s' = .next t' ∧
      t'.phase = t.phase ∧ t'.timerLoad = t.timerLoad ∧ t'.lines.oe = t.lines.oe ∧
      t.wireTrace = s.wireTrace ++ es ∧ t'.wireTrace = s'.wireTrace ++ es

/-! ## The invariant -/

/-- The invariant holds right after reset, for every well-formed configuration. -/
def Obligations.ResetMeetsInvariant : Prop :=
  (∀ c : Config, c.wf → BlockInv (State.resetWith c)) ∧ BlockInv State.reset

/-- Every step from any state that meets the invariant keeps it: 10_state.md section 3's invariants
of the snapshot, the clamps, the pin memory's form, the timer's range and the lines' levels. -/
def Obligations.StepKeepsInvariant : Prop :=
  ∀ s t : State, BlockInv s → step s = .next t → BlockInv t

/-- Every program of commands, expiries and resets, on every well-formed configuration, leads only
to states that meet the invariant. -/
def Obligations.EveryRunMeetsInvariant : Prop :=
  ∀ (c : Config) (events : List Event) (k : Nat) (t : State), c.wf →
    runFrom k { State.resetWith c with inbox := events } = .next t → BlockInv t
end

