-- ==== Sys2Proof/Laws/Decode.lean ====
section
/-! SUPPORT. Fields of a command word: a field placed by the encoder is read back by the decoder, and
fields at other places do not disturb it. -/

namespace Sys2Proof

theorem place_getLsbD {n : Nat} (x : BitVec n) (lo : Nat) {j : Nat} (hj : j < 64) :
    (place x lo).getLsbD j = (decide (lo ≤ j) && x.getLsbD (j - lo)) := by
  by_cases h : lo ≤ j
  · have : ¬ j < lo := by omega
    simp [place, hj, h, this]
  · have : j < lo := by omega
    simp [place, h, this]

/-- The decoder reads a field back from its own place. -/
theorem extract_place_same {n : Nat} (x : BitVec n) (lo : Nat) (h : lo + n ≤ 64) :
    (place x lo).extractLsb' lo n = x := by
  apply BitVec.eq_of_getLsbD_eq
  intro i hi
  simp only [BitVec.getLsbD_extractLsb', hi, decide_true, Bool.true_and]
  rw [place_getLsbD x lo (by omega)]
  simp

/-- The decoder reads zero from a field placed elsewhere. -/
theorem extract_place_other {n m : Nat} (x : BitVec n) (lo at' : Nat) (h : at' + m ≤ 64)
    (hd : lo + n ≤ at' ∨ at' + m ≤ lo) : (place x lo).extractLsb' at' m = 0 := by
  apply BitVec.eq_of_getLsbD_eq
  intro i hi
  simp only [BitVec.getLsbD_extractLsb', hi, decide_true, Bool.true_and]
  rw [place_getLsbD x lo (by omega)]
  rcases hd with hd | hd
  · rw [BitVec.getLsbD_of_ge _ _ (by omega)]; simp
  · simp; omega

/-- A one-bit field read as a bit of the word. -/
theorem getLsbD_place_ofBool (b : Bool) (lo j : Nat) (hj : j < 64) :
    (place (BitVec.ofBool b) lo).getLsbD j = (decide (j = lo) && b) := by
  rw [place_getLsbD _ _ hj]
  by_cases h : j = lo
  · subst h; simp
  · by_cases h' : lo ≤ j
    · have : ¬ (j - lo = 0) := by omega
      simp [h, h', BitVec.getLsbD_ofBool, this]
    · simp [h, h']

/-- A bit outside a placed field is zero. -/
theorem getLsbD_place_out {n : Nat} (x : BitVec n) (lo j : Nat) (hj : j < 64)
    (h : j < lo ∨ lo + n ≤ j) : (place x lo).getLsbD j = false := by
  rw [place_getLsbD x lo hj]
  rcases h with h | h
  · simp; omega
  · rw [BitVec.getLsbD_of_ge _ _ (by omega)]; simp

/-- A placed field has no bit in a mask that leaves its place out. -/
theorem place_and_eq_zero {n : Nat} (x : BitVec n) (lo : Nat) (m : Command)
    (h : ∀ j, j < n → m.getLsbD (lo + j) = false) : place x lo &&& m = 0 := by
  apply BitVec.eq_of_getLsbD_eq
  intro i hi
  rw [BitVec.getLsbD_and, place_getLsbD x lo hi]
  by_cases hlo : lo ≤ i
  · by_cases hn : i - lo < n
    · have := h (i - lo) hn
      rw [show lo + (i - lo) = i by omega] at this
      simp [this]
    · simp [BitVec.getLsbD_of_ge x (i - lo) (by omega)]
  · simp [hlo]

/-- A mask reads the fields of a word one by one. -/
theorem or_and_mask (x y m : Command) : (x ||| y) &&& m = (x &&& m) ||| (y &&& m) := by
  apply BitVec.eq_of_getLsbD_eq
  intro i _
  simp only [BitVec.getLsbD_and, BitVec.getLsbD_or, Bool.and_or_distrib_right]

end Sys2Proof
end

