-- ==== Sys2Proof/Laws/State.lean ====
section
/-! SUPPORT. One lemma per field of State for each shared update of Machine/Ops.lean, and for the
reset state: what the update leaves in that field. -/

namespace Sys2Proof.Machine

variable (s : State)

/-! ## pinWrite -/

@[simp] theorem pinWrite_cfg (row col : Nat) (v : Pin) : (pinWrite row col v s).cfg = s.cfg := rfl
@[simp] theorem pinWrite_lastVal (row col : Nat) (v : Pin) :
    (pinWrite row col v s).lastVal = s.lastVal := rfl
@[simp] theorem pinWrite_lastDp (row col : Nat) (v : Pin) :
    (pinWrite row col v s).lastDp = s.lastDp := rfl
@[simp] theorem pinWrite_lastAnim (row col : Nat) (v : Pin) :
    (pinWrite row col v s).lastAnim = s.lastAnim := rfl
@[simp] theorem pinWrite_prevDigit (row col : Nat) (v : Pin) :
    (pinWrite row col v s).prevDigit = s.prevDigit := rfl
@[simp] theorem pinWrite_animStep (row col : Nat) (v : Pin) :
    (pinWrite row col v s).animStep = s.animStep := rfl
@[simp] theorem pinWrite_bMode (row col : Nat) (v : Pin) :
    (pinWrite row col v s).bMode = s.bMode := rfl
@[simp] theorem pinWrite_bright (row col : Nat) (v : Pin) :
    (pinWrite row col v s).bright = s.bright := rfl
@[simp] theorem pinWrite_snap (row col : Nat) (v : Pin) :
    (pinWrite row col v s).snap = s.snap := rfl
@[simp] theorem pinWrite_phase (row col : Nat) (v : Pin) :
    (pinWrite row col v s).phase = s.phase := rfl
@[simp] theorem pinWrite_running (row col : Nat) (v : Pin) :
    (pinWrite row col v s).running = s.running := rfl
@[simp] theorem pinWrite_timerArmed (row col : Nat) (v : Pin) :
    (pinWrite row col v s).timerArmed = s.timerArmed := rfl
@[simp] theorem pinWrite_timerLoad (row col : Nat) (v : Pin) :
    (pinWrite row col v s).timerLoad = s.timerLoad := rfl
@[simp] theorem pinWrite_lines (row col : Nat) (v : Pin) :
    (pinWrite row col v s).lines = s.lines := rfl
@[simp] theorem pinWrite_pinMem (row col : Nat) (v : Pin) :
    (pinWrite row col v s).pinMem = Memory.write s.pinMem (pinAddr row col) v := rfl
@[simp] theorem pinWrite_wireTrace (row col : Nat) (v : Pin) :
    (pinWrite row col v s).wireTrace = s.wireTrace := rfl
@[simp] theorem pinWrite_timerTrace (row col : Nat) (v : Pin) :
    (pinWrite row col v s).timerTrace = s.timerTrace := rfl
@[simp] theorem pinWrite_pubCount (row col : Nat) (v : Pin) :
    (pinWrite row col v s).pubCount = s.pubCount := rfl
@[simp] theorem pinWrite_refused (row col : Nat) (v : Pin) :
    (pinWrite row col v s).refused = s.refused := rfl
@[simp] theorem pinWrite_inbox (row col : Nat) (v : Pin) :
    (pinWrite row col v s).inbox = s.inbox := rfl

/-! ## emitAll -/

@[simp] theorem emitAll_cfg (es : List WireEvent) : (emitAll es s).cfg = s.cfg := rfl
@[simp] theorem emitAll_lastVal (es : List WireEvent) : (emitAll es s).lastVal = s.lastVal := rfl
@[simp] theorem emitAll_lastDp (es : List WireEvent) : (emitAll es s).lastDp = s.lastDp := rfl
@[simp] theorem emitAll_lastAnim (es : List WireEvent) :
    (emitAll es s).lastAnim = s.lastAnim := rfl
@[simp] theorem emitAll_prevDigit (es : List WireEvent) :
    (emitAll es s).prevDigit = s.prevDigit := rfl
@[simp] theorem emitAll_animStep (es : List WireEvent) :
    (emitAll es s).animStep = s.animStep := rfl
@[simp] theorem emitAll_bMode (es : List WireEvent) : (emitAll es s).bMode = s.bMode := rfl
@[simp] theorem emitAll_bright (es : List WireEvent) : (emitAll es s).bright = s.bright := rfl
@[simp] theorem emitAll_snap (es : List WireEvent) : (emitAll es s).snap = s.snap := rfl
@[simp] theorem emitAll_phase (es : List WireEvent) : (emitAll es s).phase = s.phase := rfl
@[simp] theorem emitAll_running (es : List WireEvent) : (emitAll es s).running = s.running := rfl
@[simp] theorem emitAll_timerArmed (es : List WireEvent) :
    (emitAll es s).timerArmed = s.timerArmed := rfl
@[simp] theorem emitAll_timerLoad (es : List WireEvent) :
    (emitAll es s).timerLoad = s.timerLoad := rfl
@[simp] theorem emitAll_lines (es : List WireEvent) :
    (emitAll es s).lines = es.foldl Lines.drive s.lines := rfl
@[simp] theorem emitAll_pinMem (es : List WireEvent) : (emitAll es s).pinMem = s.pinMem := rfl
@[simp] theorem emitAll_wireTrace (es : List WireEvent) :
    (emitAll es s).wireTrace = s.wireTrace ++ es := rfl
@[simp] theorem emitAll_timerTrace (es : List WireEvent) :
    (emitAll es s).timerTrace = s.timerTrace := rfl
@[simp] theorem emitAll_pubCount (es : List WireEvent) :
    (emitAll es s).pubCount = s.pubCount := rfl
@[simp] theorem emitAll_refused (es : List WireEvent) : (emitAll es s).refused = s.refused := rfl
@[simp] theorem emitAll_inbox (es : List WireEvent) : (emitAll es s).inbox = s.inbox := rfl

/-! ## arm -/

@[simp] theorem arm_cfg (d : Nat) : (arm d s).cfg = s.cfg := rfl
@[simp] theorem arm_lastVal (d : Nat) : (arm d s).lastVal = s.lastVal := rfl
@[simp] theorem arm_lastDp (d : Nat) : (arm d s).lastDp = s.lastDp := rfl
@[simp] theorem arm_lastAnim (d : Nat) : (arm d s).lastAnim = s.lastAnim := rfl
@[simp] theorem arm_prevDigit (d : Nat) : (arm d s).prevDigit = s.prevDigit := rfl
@[simp] theorem arm_animStep (d : Nat) : (arm d s).animStep = s.animStep := rfl
@[simp] theorem arm_bMode (d : Nat) : (arm d s).bMode = s.bMode := rfl
@[simp] theorem arm_bright (d : Nat) : (arm d s).bright = s.bright := rfl
@[simp] theorem arm_snap (d : Nat) : (arm d s).snap = s.snap := rfl
@[simp] theorem arm_phase (d : Nat) : (arm d s).phase = s.phase := rfl
@[simp] theorem arm_running (d : Nat) : (arm d s).running = s.running := rfl
@[simp] theorem arm_timerArmed (d : Nat) : (arm d s).timerArmed = true := rfl
@[simp] theorem arm_timerLoad (d : Nat) : (arm d s).timerLoad = d := rfl
@[simp] theorem arm_lines (d : Nat) : (arm d s).lines = s.lines := rfl
@[simp] theorem arm_pinMem (d : Nat) : (arm d s).pinMem = s.pinMem := rfl
@[simp] theorem arm_wireTrace (d : Nat) : (arm d s).wireTrace = s.wireTrace := rfl
@[simp] theorem arm_timerTrace (d : Nat) : (arm d s).timerTrace = s.timerTrace ++ [d] := rfl
@[simp] theorem arm_pubCount (d : Nat) : (arm d s).pubCount = s.pubCount := rfl
@[simp] theorem arm_refused (d : Nat) : (arm d s).refused = s.refused := rfl
@[simp] theorem arm_inbox (d : Nat) : (arm d s).inbox = s.inbox := rfl

/-! ## publish -/

@[simp] theorem publish_cfg (S : Snapshot) : (publish S s).cfg = s.cfg := rfl
@[simp] theorem publish_lastVal (S : Snapshot) : (publish S s).lastVal = s.lastVal := rfl
@[simp] theorem publish_lastDp (S : Snapshot) : (publish S s).lastDp = s.lastDp := rfl
@[simp] theorem publish_lastAnim (S : Snapshot) : (publish S s).lastAnim = s.lastAnim := rfl
@[simp] theorem publish_prevDigit (S : Snapshot) : (publish S s).prevDigit = s.prevDigit := rfl
@[simp] theorem publish_animStep (S : Snapshot) : (publish S s).animStep = s.animStep := rfl
@[simp] theorem publish_bMode (S : Snapshot) : (publish S s).bMode = s.bMode := rfl
@[simp] theorem publish_bright (S : Snapshot) : (publish S s).bright = s.bright := rfl
@[simp] theorem publish_snap (S : Snapshot) : (publish S s).snap = S := rfl
@[simp] theorem publish_phase (S : Snapshot) : (publish S s).phase = s.phase := rfl
@[simp] theorem publish_running (S : Snapshot) : (publish S s).running = s.running := rfl
@[simp] theorem publish_timerArmed (S : Snapshot) : (publish S s).timerArmed = s.timerArmed := rfl
@[simp] theorem publish_timerLoad (S : Snapshot) : (publish S s).timerLoad = s.timerLoad := rfl
@[simp] theorem publish_lines (S : Snapshot) : (publish S s).lines = s.lines := rfl
@[simp] theorem publish_pinMem (S : Snapshot) : (publish S s).pinMem = s.pinMem := rfl
@[simp] theorem publish_wireTrace (S : Snapshot) : (publish S s).wireTrace = s.wireTrace := rfl
@[simp] theorem publish_timerTrace (S : Snapshot) : (publish S s).timerTrace = s.timerTrace := rfl
@[simp] theorem publish_pubCount (S : Snapshot) : (publish S s).pubCount = s.pubCount + 1 := rfl
@[simp] theorem publish_refused (S : Snapshot) : (publish S s).refused = s.refused := rfl
@[simp] theorem publish_inbox (S : Snapshot) : (publish S s).inbox = s.inbox := rfl

/-! ## refuse -/

@[simp] theorem refuse_cfg (r : RefuseReason) : (refuse r s).cfg = s.cfg := rfl
@[simp] theorem refuse_lastVal (r : RefuseReason) : (refuse r s).lastVal = s.lastVal := rfl
@[simp] theorem refuse_lastDp (r : RefuseReason) : (refuse r s).lastDp = s.lastDp := rfl
@[simp] theorem refuse_lastAnim (r : RefuseReason) : (refuse r s).lastAnim = s.lastAnim := rfl
@[simp] theorem refuse_prevDigit (r : RefuseReason) : (refuse r s).prevDigit = s.prevDigit := rfl
@[simp] theorem refuse_animStep (r : RefuseReason) : (refuse r s).animStep = s.animStep := rfl
@[simp] theorem refuse_bMode (r : RefuseReason) : (refuse r s).bMode = s.bMode := rfl
@[simp] theorem refuse_bright (r : RefuseReason) : (refuse r s).bright = s.bright := rfl
@[simp] theorem refuse_snap (r : RefuseReason) : (refuse r s).snap = s.snap := rfl
@[simp] theorem refuse_phase (r : RefuseReason) : (refuse r s).phase = s.phase := rfl
@[simp] theorem refuse_running (r : RefuseReason) : (refuse r s).running = s.running := rfl
@[simp] theorem refuse_timerArmed (r : RefuseReason) :
    (refuse r s).timerArmed = s.timerArmed := rfl
@[simp] theorem refuse_timerLoad (r : RefuseReason) : (refuse r s).timerLoad = s.timerLoad := rfl
@[simp] theorem refuse_lines (r : RefuseReason) : (refuse r s).lines = s.lines := rfl
@[simp] theorem refuse_pinMem (r : RefuseReason) : (refuse r s).pinMem = s.pinMem := rfl
@[simp] theorem refuse_wireTrace (r : RefuseReason) : (refuse r s).wireTrace = s.wireTrace := rfl
@[simp] theorem refuse_timerTrace (r : RefuseReason) :
    (refuse r s).timerTrace = s.timerTrace := rfl
@[simp] theorem refuse_pubCount (r : RefuseReason) : (refuse r s).pubCount = s.pubCount := rfl
@[simp] theorem refuse_refused (r : RefuseReason) : (refuse r s).refused = some r := rfl
@[simp] theorem refuse_inbox (r : RefuseReason) : (refuse r s).inbox = s.inbox := rfl

/-! ## takeExpiry -/

@[simp] theorem takeExpiry_cfg : (takeExpiry s).cfg = s.cfg := rfl
@[simp] theorem takeExpiry_lastVal : (takeExpiry s).lastVal = s.lastVal := rfl
@[simp] theorem takeExpiry_lastDp : (takeExpiry s).lastDp = s.lastDp := rfl
@[simp] theorem takeExpiry_lastAnim : (takeExpiry s).lastAnim = s.lastAnim := rfl
@[simp] theorem takeExpiry_prevDigit : (takeExpiry s).prevDigit = s.prevDigit := rfl
@[simp] theorem takeExpiry_animStep : (takeExpiry s).animStep = s.animStep := rfl
@[simp] theorem takeExpiry_bMode : (takeExpiry s).bMode = s.bMode := rfl
@[simp] theorem takeExpiry_bright : (takeExpiry s).bright = s.bright := rfl
@[simp] theorem takeExpiry_snap : (takeExpiry s).snap = s.snap := rfl
@[simp] theorem takeExpiry_phase : (takeExpiry s).phase = s.phase := rfl
@[simp] theorem takeExpiry_running : (takeExpiry s).running = s.running := rfl
@[simp] theorem takeExpiry_timerArmed : (takeExpiry s).timerArmed = false := rfl
@[simp] theorem takeExpiry_timerLoad : (takeExpiry s).timerLoad = s.timerLoad := rfl
@[simp] theorem takeExpiry_lines : (takeExpiry s).lines = s.lines := rfl
@[simp] theorem takeExpiry_pinMem : (takeExpiry s).pinMem = s.pinMem := rfl
@[simp] theorem takeExpiry_wireTrace : (takeExpiry s).wireTrace = s.wireTrace := rfl
@[simp] theorem takeExpiry_timerTrace : (takeExpiry s).timerTrace = s.timerTrace := rfl
@[simp] theorem takeExpiry_pubCount : (takeExpiry s).pubCount = s.pubCount := rfl
@[simp] theorem takeExpiry_refused : (takeExpiry s).refused = s.refused := rfl
@[simp] theorem takeExpiry_inbox : (takeExpiry s).inbox = s.inbox := rfl

/-! ## reset -/

@[simp] theorem resetWith_cfg (c : Config) : (State.resetWith c).cfg = c := rfl
@[simp] theorem resetWith_lastVal (c : Config) : (State.resetWith c).lastVal = .fill blankDigit := rfl
@[simp] theorem resetWith_lastDp (c : Config) : (State.resetWith c).lastDp = .fill false := rfl
@[simp] theorem resetWith_lastAnim (c : Config) : (State.resetWith c).lastAnim = .fill 0 := rfl
@[simp] theorem resetWith_prevDigit (c : Config) : (State.resetWith c).prevDigit = .fill blankDigit := rfl
@[simp] theorem resetWith_animStep (c : Config) : (State.resetWith c).animStep = 0 := rfl
@[simp] theorem resetWith_bMode (c : Config) : (State.resetWith c).bMode = .fixed := rfl
@[simp] theorem resetWith_bright (c : Config) : (State.resetWith c).bright = 0 := rfl
@[simp] theorem resetWith_snap (c : Config) : (State.resetWith c).snap = ⟨.dark, .dark, plan c 0 0, 0⟩ := rfl
@[simp] theorem resetWith_phase (c : Config) : (State.resetWith c).phase = .blank := rfl
@[simp] theorem resetWith_running (c : Config) : (State.resetWith c).running = false := rfl
@[simp] theorem resetWith_timerArmed (c : Config) : (State.resetWith c).timerArmed = false := rfl
@[simp] theorem resetWith_timerLoad (c : Config) : (State.resetWith c).timerLoad = 0 := rfl
@[simp] theorem resetWith_lines (c : Config) : (State.resetWith c).lines = .reset := rfl
@[simp] theorem resetWith_pinMem (c : Config) : (State.resetWith c).pinMem = [] := rfl
@[simp] theorem resetWith_wireTrace (c : Config) : (State.resetWith c).wireTrace = [] := rfl
@[simp] theorem resetWith_timerTrace (c : Config) : (State.resetWith c).timerTrace = [] := rfl
@[simp] theorem resetWith_pubCount (c : Config) : (State.resetWith c).pubCount = 0 := rfl
@[simp] theorem resetWith_refused (c : Config) : (State.resetWith c).refused = none := rfl
@[simp] theorem resetWith_inbox (c : Config) : (State.resetWith c).inbox = [] := rfl

end Sys2Proof.Machine
end

