-- ==== Sys2Proof/Laws/Encoder.lean ====
section
/-! SUPPORT. ENCODE: which bits SETPIN and a list of pins set (spec/40_bit_encoder.md R101, R102),
and which pins the lit elements give. -/

namespace Sys2Proof.Machine

/-- The word of a chip. -/
def BitFrame.word (f : BitFrame) : Chip → Word
  | .chip0 => f.chip0
  | .chip1 => f.chip1

/-- R63: the pins that name bit `k` of a chip. -/
theorem pinToBit_eq_some {p : Pin} {c : Chip} {k : Nat} :
    pinToBit p = some (c, k) ↔
      k < 32 ∧ p.toNat = (match c with | .chip0 => k + 1 | .chip1 => k + 101) := by
  unfold pinToBit chip0Base chip1Base wordBits
  by_cases h0 : 1 ≤ p.toNat ∧ p.toNat < 1 + 32
  · rw [if_pos h0]; cases c <;> simp <;> omega
  · rw [if_neg h0]
    by_cases h1 : 101 ≤ p.toNat ∧ p.toNat < 101 + 32
    · rw [if_pos h1]; cases c <;> simp <;> omega
    · rw [if_neg h1]; cases c <;> simp <;> omega

/-- R63: two pin numbers with the same bit are the same pin. -/
theorem pinToBit_inj {p q : Pin} {c : Chip} {k : Nat} (hp : pinToBit p = some (c, k))
    (hq : pinToBit q = some (c, k)) : p = q := by
  rw [pinToBit_eq_some] at hp hq
  exact BitVec.eq_of_toNat_eq (hp.2.trans hq.2.symm)

theorem shiftOne_getLsbD (k j : Nat) (hj : j < 32) :
    ((1#32 <<< k).getLsbD j) = decide (j = k) := by
  simp only [BitVec.getLsbD_shiftLeft, hj, decide_true, Bool.true_and]
  by_cases h : j = k
  · subst h; simp
  · by_cases h' : j < k
    · simp [h, h']
    · have : j - k ≠ 0 := by omega
      simp [h, h', BitVec.getLsbD_one, this]

/-- R101: SETPIN adds the bit the pin names and no other. -/
theorem setPin_getLsbD (f : BitFrame) (p : Pin) (c : Chip) {j : Nat} (hj : j < 32) :
    ((setPin f p).word c).getLsbD j =
      ((f.word c).getLsbD j || decide (pinToBit p = some (c, j))) := by
  unfold setPin
  split <;> rename_i k h <;> cases c <;>
    simp [BitFrame.word, h, shiftOne_getLsbD _ _ hj, eq_comm]

/-- R101, R102: the bits of a frame built from a list of pins. -/
theorem foldl_setPin_getLsbD (ps : List Pin) (f : BitFrame) (c : Chip) {j : Nat} (hj : j < 32) :
    ((ps.foldl setPin f).word c).getLsbD j = true ↔
      (f.word c).getLsbD j = true ∨ ∃ p ∈ ps, pinToBit p = some (c, j) := by
  induction ps generalizing f with
  | nil => simp
  | cons p ps ih => simp [ih, setPin_getLsbD f p c hj, or_assoc]

theorem mem_digitPins {m : List Host.Cell} {row : Nat} {d : Digit} {p : Pin} :
    p ∈ digitPins m row d ↔ d.toNat ≤ 9 ∧ pinRead m row d.toNat = p := by
  unfold digitPins isBlank blankMin
  by_cases h : d.toNat ≤ 9
  · have : ¬ 10 ≤ d.toNat := by omega
    simp [h, this, eq_comm]
  · have : 10 ≤ d.toNat := by omega
    simp [h, this]

theorem mem_dpPins {m : List Host.Cell} {col : Nat} {b : Bool} {p : Pin} :
    p ∈ dpPins m col b ↔ b = true ∧ pinRead m 6 col = p := by
  unfold dpPins dpRow nPos
  cases b <;> simp [eq_comm]

theorem exists_fin6 {P : Fin 6 → Prop} :
    (∃ i, P i) ↔ P 0 ∨ P 1 ∨ P 2 ∨ P 3 ∨ P 4 ∨ P 5 := by
  simp [Fin.exists_fin_succ]

theorem exists_fin5 {P : Fin 5 → Prop} :
    (∃ i, P i) ↔ P 0 ∨ P 1 ∨ P 2 ∨ P 3 ∨ P 4 := by
  simp [Fin.exists_fin_succ]

/-- R101, R103, R104: the pins of the lit elements. -/
theorem mem_litPins {m : List Host.Cell} {dig : Six Digit} {dp : Five Bool} {p : Pin} :
    p ∈ litPins m dig dp ↔
      (∃ i : Fin 6, (dig.get i).toNat ≤ 9 ∧ pinRead m i (dig.get i).toNat = p) ∨
      (∃ j : Fin 5, dp.get j = true ∧ pinRead m 6 j = p) := by
  rw [exists_fin6, exists_fin5]
  simp [litPins, Six.indexed, Five.indexed, Six.get, Five.get, mem_digitPins, mem_dpPins,
    or_assoc]

/-- R101: a bit of the encoded frame is set exactly when a lit element's pin names it. -/
theorem encodeFrame_getLsbD (m : List Host.Cell) (dig : Six Digit) (dp : Five Bool) (c : Chip)
    {j : Nat} (hj : j < 32) :
    ((encodeFrame m dig dp).word c).getLsbD j = true ↔
      ∃ p ∈ litPins m dig dp, pinToBit p = some (c, j) := by
  rw [encodeFrame, foldl_setPin_getLsbD _ _ _ hj]
  cases c <;> simp [BitFrame.dark, BitFrame.word]

end Sys2Proof.Machine
end

