-- ==== Sys2Proof/Laws/Plan.lean ====
section
/-! SUPPORT. PLAN: every subtraction is defined on naturals (spec/41_timing_converter.md R127), and
the clamps on steps and brightness stay in range. -/

namespace Sys2Proof.Machine

variable {c : Config}

/-- R11, R12: the constraints a well-formed configuration meets. -/
theorem wf_iff :
    c.wf = true ↔ c.pwmMin ≤ c.refreshPeriod ∧ c.refreshPeriod ≤ c.timerMax ∧
      500 ≤ c.timerMax ∧ 1 ≤ c.maxBrightness ∧ 1 ≤ c.animN ∧ c.animN ≤ 31 := by
  simp only [Config.wf, Bool.and_eq_true, decide_eq_true_eq, and_assoc]

/-- R127, first point. -/
theorem pwmOf_le (h : c.wf) {b : Nat} (hb : b ≤ c.maxBrightness) :
    pwmOf c b ≤ c.refreshPeriod := by
  obtain ⟨h1, -⟩ := wf_iff.1 h
  refine Nat.max_le.2 ⟨h1, Nat.div_le_of_le_mul ?_⟩
  rw [Nat.mul_comm c.maxBrightness]
  exact Nat.mul_le_mul_left _ hb

/-- R127, second point. -/
theorem rawOld_le (pwm s : Nat) : rawOld c pwm s ≤ pwm := by
  refine Nat.div_le_of_le_mul ?_
  rw [Nat.mul_comm c.animN]
  exact Nat.mul_le_mul_left _ (Nat.sub_le _ _)

theorem clampVisible_le {pwm raw : Nat} (h : raw ≤ pwm) : clampVisible c pwm raw ≤ pwm := by
  unfold clampVisible
  split
  · exact Nat.zero_le _
  · split <;> omega

/-- The visibility clamp is non-decreasing in `raw` (R126 law 3). -/
theorem clampVisible_mono {pwm raw raw' : Nat} (h : raw ≤ raw') (h' : raw' ≤ pwm) :
    clampVisible c pwm raw ≤ clampVisible c pwm raw' := by
  unfold clampVisible
  repeat' split
  all_goals omega

/-- `raw` is non-increasing in the step (R126 law 3). -/
theorem rawOld_antitone (pwm : Nat) {s s' : Nat} (h : s ≤ s') :
    rawOld c pwm s' ≤ rawOld c pwm s :=
  Nat.div_le_div_right (Nat.mul_le_mul_left _ (Nat.sub_le_sub_left h _))

theorem plan_step_zero (b : Nat) :
    plan c b 0 =
      ⟨pwmOf c b / 2, pwmOf c b / 2, c.refreshPeriod - pwmOf c b / 2 - pwmOf c b / 2⟩ := by
  simp [plan, splitOnTime]

theorem plan_step_pos (b : Nat) {s : Nat} (h : s ≠ 0) :
    plan c b s =
      let so := clampVisible c (pwmOf c b) (rawOld c (pwmOf c b) s)
      ⟨so, pwmOf c b - so, c.refreshPeriod - so - (pwmOf c b - so)⟩ := by
  simp [plan, splitOnTime, h]

/-- R126 law 2: the on-time of a plan. -/
theorem plan_onTime_le (b s : Nat) :
    (plan c b s).showOld + (plan c b s).showNew ≤ pwmOf c b := by
  rcases Nat.eq_zero_or_pos s with rfl | hs
  · simp only [plan_step_zero]; omega
  · have := clampVisible_le (c := c) (rawOld_le (c := c) (pwmOf c b) s)
    simp only [plan_step_pos b (Nat.pos_iff_ne_zero.1 hs)]
    omega

theorem plan_blankTime (b s : Nat) :
    (plan c b s).blankTime = c.refreshPeriod - (plan c b s).showOld - (plan c b s).showNew := rfl

/-- R126 law 1. -/
theorem plan_sum_of_le {b : Nat} (h : pwmOf c b ≤ c.refreshPeriod) (s : Nat) :
    (plan c b s).showOld + (plan c b s).showNew + (plan c b s).blankTime = c.refreshPeriod := by
  have := plan_onTime_le (c := c) b s
  have := plan_blankTime (c := c) b s
  omega

theorem bclamp_le (x : Nat) : bclamp c x ≤ c.maxBrightness := Nat.min_le_right _ _

theorem clampAnim_toNat (a : AnimStep) : (clampAnim c a).toNat = min a.toNat c.animN := by
  unfold clampAnim
  have := a.isLt
  split
  · omega
  · rw [BitVec.toNat_ofNat, Nat.mod_eq_of_lt (by omega)]
    omega

theorem maxStep_toNat (a b : AnimStep) : (maxStep a b).toNat = max a.toNat b.toNat := by
  unfold maxStep
  split <;> omega

/-- R164: the global step is the maximum of the six. -/
theorem globalStep_toNat (a : Six AnimStep) :
    (globalStep a).toNat =
      max a.p0.toNat (max a.p1.toNat (max a.p2.toNat
        (max a.p3.toNat (max a.p4.toNat a.p5.toNat)))) := by
  simp only [globalStep, maxStep_toNat]

end Sys2Proof.Machine
end

