-- ==== Sys2Proof/Laws/Serial.lean ====
section
/-! SUPPORT. The Serial Link: how a sequence of events splits, and what one word and one frame leave
on the lines (spec/44_serial_link.md R181 to R185). -/

namespace Sys2Proof.Machine

/-! ## Sequences of events -/

theorem emitAll_append (es fs : List WireEvent) (s : State) :
    emitAll (es ++ fs) s = emitAll fs (emitAll es s) := by
  simp [emitAll, List.foldl_append]

theorem traceSafe_append (es fs : List WireEvent) (l : Lines) :
    traceSafe l (es ++ fs) = (traceSafe l es && traceSafe (es.foldl Lines.drive l) fs) := by
  induction es generalizing l with
  | nil => simp [traceSafe]
  | cons e es ih => simp [traceSafe, ih, Bool.and_assoc]

theorem fallingEdges_append (es fs : List WireEvent) (l : Lines) :
    fallingEdges l (es ++ fs) = fallingEdges l es + fallingEdges (es.foldl Lines.drive l) fs := by
  induction es generalizing l with
  | nil => simp [fallingEdges]
  | cons e es ih => simp [fallingEdges, ih, Nat.add_assoc]

theorem watch_append (es fs : List WireEvent) :
    Observer.watch (es ++ fs) = fs.foldl Observer.see (Observer.watch es) := by
  simp [Observer.watch, List.foldl_append]

/-- The observer sees the levels of the lines. -/
theorem see_lines (o : Observer) (e : WireEvent) : (o.see e).lines = o.lines.drive e := by
  cases e <;> simp only [Observer.see] <;> repeat' split
  all_goals rfl

theorem foldl_see_lines (es : List WireEvent) (o : Observer) :
    (es.foldl Observer.see o).lines = es.foldl Lines.drive o.lines := by
  induction es generalizing o with
  | nil => rfl
  | cons e es ih => simp [ih, see_lines]

/-! ## Bits -/

/-- The events of a list of bits, without the final idle level. -/
def bitsEvents (bs : List Bool) : List WireEvent := bs.flatMap bitEvents

/-- R182, in numbers. -/
@[simp] theorem bitIndex_msbFirst (k : Nat) : bitIndex .msbFirst k = 31 - k := rfl

@[simp] theorem bitIndex_lsbFirst (k : Nat) : bitIndex .lsbFirst k = k := rfl

/-- The bits of a word in the order they are sent. -/
def wordBitsOf (o : BitOrder) (w : Word) : List Bool :=
  (List.range wordBits).map (fun k => w.getLsbD (bitIndex o k))

theorem wordEvents_eq (o : BitOrder) (w : Word) :
    wordEvents o w = bitsEvents (wordBitsOf o w) ++ [.clk true] := by
  simp [wordEvents, bitsEvents, wordBitsOf, List.flatMap_map]

theorem wordBitsOf_length (o : BitOrder) (w : Word) : (wordBitsOf o w).length = wordBits := by
  simp [wordBitsOf]

@[simp] theorem bitsEvents_cons (b : Bool) (bs : List Bool) :
    bitsEvents (b :: bs) = bitEvents b ++ bitsEvents bs := rfl

theorem bitsEvents_length (bs : List Bool) : (bitsEvents bs).length = 5 * bs.length := by
  induction bs with
  | nil => rfl
  | cons b bs ih => simp [bitEvents, ih]; omega

/-- What a list of bits leaves on the lines: OE is not touched, DATA holds the last bit. -/
theorem drive_bitsEvents (bs : List Bool) (l : Lines) :
    (bitsEvents bs).foldl Lines.drive l =
      { l with clk := if bs = [] then l.clk else false, data := bs.getLastD l.data } := by
  induction bs generalizing l with
  | nil => rfl
  | cons b bs ih =>
    rw [bitsEvents_cons, List.foldl_append, ih]
    cases bs <;> simp [bitEvents, Lines.drive, List.getLast?_cons]

theorem traceSafe_bitsEvents (bs : List Bool) (l : Lines) (h : l.oe = false) :
    traceSafe l (bitsEvents bs) = true := by
  induction bs generalizing l with
  | nil => rfl
  | cons b bs ih =>
    rw [bitsEvents_cons, traceSafe_append, ih _ (by simp [bitEvents, Lines.drive, h])]
    simp [bitEvents, traceSafe, eventSafe, Lines.drive, h]

theorem fallingEdges_bitsEvents (bs : List Bool) (l : Lines) :
    fallingEdges l (bitsEvents bs) = bs.length := by
  induction bs generalizing l with
  | nil => rfl
  | cons b bs ih =>
    rw [bitsEvents_cons, fallingEdges_append, ih]
    simp [bitEvents, fallingEdges, Lines.drive]
    omega

/-- R188: each bit is shifted into the chain at its falling edge. -/
theorem see_bitsEvents (bs : List Bool) (o : Observer) :
    ((bitsEvents bs).foldl Observer.see o).chain = bs.foldl Observer.shiftIn o.chain ∧
    ((bitsEvents bs).foldl Observer.see o).shown = o.shown := by
  induction bs generalizing o with
  | nil => exact ⟨rfl, rfl⟩
  | cons b bs ih =>
    rw [bitsEvents_cons, List.foldl_append]
    refine ⟨((ih _).1).trans ?_, ((ih _).2).trans ?_⟩ <;>
      simp [bitEvents, Observer.see, Lines.drive]

/-- R188: the bit shifted in is bit 0 of the chain. -/
theorem shiftIn_getLsbD_zero (c : Chain) (b : Bool) : (Observer.shiftIn c b).getLsbD 0 = b := by
  simp [Observer.shiftIn]

/-- R188: every other bit moves up by one. -/
theorem shiftIn_getLsbD_succ (c : Chain) (b : Bool) {k : Nat} (hk : k + 1 < 64) :
    (Observer.shiftIn c b).getLsbD (k + 1) = c.getLsbD k := by
  have hk' : k + 1 < chainBits := hk
  have hb : (BitVec.ofBool b).getLsbD (k + 1) = false := BitVec.getLsbD_of_ge _ _ (by omega)
  simp only [Observer.shiftIn, BitVec.getLsbD_or, BitVec.getLsbD_shiftLeft,
    BitVec.getLsbD_setWidth, hb, hk', decide_true, Bool.true_and, Nat.add_sub_cancel,
    Nat.not_lt_of_le (Nat.le_add_left 1 k), decide_false, Bool.not_false, Bool.and_false,
    Bool.or_false]

/-- R188: after a list of bits the last one sent is bit 0 of the chain. -/
theorem chain_getLsbD (bs : List Bool) (c : Chain) {k : Nat} (hk : k < 64) :
    (bs.foldl Observer.shiftIn c).getLsbD k =
      if k < bs.length then bs.getD (bs.length - 1 - k) false else c.getLsbD (k - bs.length) := by
  induction bs using List.reverseRecOn generalizing k with
  | nil => simp
  | append_singleton bs b ih =>
    rw [List.foldl_append]
    rcases k with _ | k
    · rw [List.foldl_cons, List.foldl_nil, shiftIn_getLsbD_zero]
      simp
    · have h := ih (k := k) (by omega)
      simp only [List.foldl_cons, List.foldl_nil, List.length_append, List.length_singleton,
        Nat.add_lt_add_iff_right, Nat.add_sub_add_right, Nat.add_sub_cancel,
        shiftIn_getLsbD_succ _ _ hk, h]
      by_cases hlt : k < bs.length
      · have : bs.length - 1 - k < bs.length := by omega
        simp [hlt, List.getElem?_append, show bs.length - (k + 1) = bs.length - 1 - k by omega,
          this]
      · simp [hlt]

theorem wordBitsOf_getD (o : BitOrder) (w : Word) {k : Nat} (hk : k < 32) :
    (wordBitsOf o w).getD k false = w.getLsbD (bitIndex o k) := by
  simp [wordBitsOf, wordBits, hk]

/-! ## Words and frames -/

/-- R184. -/
theorem wordEvents_length (o : BitOrder) (w : Word) : (wordEvents o w).length = 161 := by
  simp [wordEvents_eq, bitsEvents_length, wordBitsOf_length, wordBits]

/-- R184. -/
theorem frameEvents_length (o : BitOrder) (f : BitFrame) : (frameEvents o f).length = 322 := by
  simp [frameEvents, wordEvents_length]

/-- R185: after a word CLK = 1 and DATA holds the last bit sent. -/
theorem drive_wordEvents (o : BitOrder) (w : Word) (l : Lines) :
    (wordEvents o w).foldl Lines.drive l =
      { clk := true, data := w.getLsbD (bitIndex o 31), oe := l.oe } := by
  rw [wordEvents_eq, List.foldl_append, drive_bitsEvents]
  cases o <;> simp [wordBitsOf, wordBits, List.range_succ, Lines.drive]

theorem drive_frameEvents (o : BitOrder) (f : BitFrame) (l : Lines) :
    (frameEvents o f).foldl Lines.drive l =
      { clk := true, data := f.chip0.getLsbD (bitIndex o 31), oe := l.oe } := by
  simp [frameEvents, drive_wordEvents]

theorem traceSafe_wordEvents (o : BitOrder) (w : Word) (l : Lines) (h : l.oe = false) :
    traceSafe l (wordEvents o w) = true := by
  rw [wordEvents_eq, traceSafe_append, traceSafe_bitsEvents _ _ h, drive_bitsEvents]
  simp [traceSafe, eventSafe, h]

theorem traceSafe_frameEvents (o : BitOrder) (f : BitFrame) (l : Lines) (h : l.oe = false) :
    traceSafe l (frameEvents o f) = true := by
  rw [frameEvents, traceSafe_append, traceSafe_wordEvents _ _ _ h,
    traceSafe_wordEvents _ _ _ (by simp [drive_wordEvents, h])]
  rfl

theorem fallingEdges_wordEvents (o : BitOrder) (w : Word) (l : Lines) :
    fallingEdges l (wordEvents o w) = 32 := by
  rw [wordEvents_eq, fallingEdges_append, fallingEdges_bitsEvents, wordBitsOf_length]
  simp [fallingEdges, wordBits]

theorem fallingEdges_frameEvents (o : BitOrder) (f : BitFrame) (l : Lines) :
    fallingEdges l (frameEvents o f) = 64 := by
  simp [frameEvents, fallingEdges_append, fallingEdges_wordEvents]

/-- R188: what one word leaves in the chain. -/
theorem see_wordEvents (o : BitOrder) (w : Word) (ob : Observer) :
    ((wordEvents o w).foldl Observer.see ob).shown = ob.shown ∧
    ∀ k, k < 64 → ((wordEvents o w).foldl Observer.see ob).chain.getLsbD k =
      if k < 32 then w.getLsbD (bitIndex o (31 - k)) else ob.chain.getLsbD (k - 32) := by
  obtain ⟨h1, h2⟩ := see_bitsEvents (wordBitsOf o w) ob
  rw [wordEvents_eq, List.foldl_append]
  refine ⟨by simpa [Observer.see] using h2, fun k hk => ?_⟩
  have h3 := chain_getLsbD (wordBitsOf o w) ob.chain hk
  simp only [wordBitsOf_length, wordBits] at h3
  simp only [List.foldl_cons, List.foldl_nil, Observer.see, Bool.true_eq_false, and_false,
    if_false, h1, h3]
  split
  · exact wordBitsOf_getD o w (by omega)
  · rfl

/-- R188, R189: what one frame leaves in the chain: chip 0 low, chip 1 high. -/
theorem see_frameEvents (o : BitOrder) (f : BitFrame) (ob : Observer) :
    ((frameEvents o f).foldl Observer.see ob).shown = ob.shown ∧
    ∀ k, k < 32 →
      ((frameEvents o f).foldl Observer.see ob).chain.getLsbD k =
        f.chip0.getLsbD (bitIndex o (31 - k)) ∧
      ((frameEvents o f).foldl Observer.see ob).chain.getLsbD (32 + k) =
        f.chip1.getLsbD (bitIndex o (31 - k)) := by
  rw [frameEvents, List.foldl_append]
  refine ⟨by simp [see_wordEvents], fun k hk => ⟨?_, ?_⟩⟩
  · rw [(see_wordEvents o f.chip0 _).2 k (by omega), if_pos hk]
  · rw [(see_wordEvents o f.chip0 _).2 (32 + k) (by omega), if_neg (by omega),
      (see_wordEvents o f.chip1 ob).2 _ (by omega), if_pos (by omega)]
    congr 2
    omega

/-- No word or frame event drives OE. -/
theorem oe_not_mem_frameEvents (o : BitOrder) (f : BitFrame) (b : Bool) :
    .oe b ∉ frameEvents o f := by
  simp [frameEvents, wordEvents, bitEvents]

end Sys2Proof.Machine
end

