-- ==== Sys2Proof/Laws/Fsm.lean ====
section
/-! SUPPORT. TIMER_EXPIRY's handler as one record update, and what it leaves on the lines
(spec/42_frame_fsm.md R143 to R149). -/

namespace Sys2Proof.Machine

/-- The phase an expiry enters (R144, R145). -/
def expiryPhase (s : State) : Phase := enter s.phase.succ s.snap.plan

/-- The duration an expiry arms (R146). -/
def expiryTicks (s : State) : Nat := floorTicks (phaseTicks (expiryPhase s) s.snap.plan)

/-- The events that shift a phase's frame; none in Blank (R149). -/
def shiftEvents (o : BitOrder) (f : Option BitFrame) : List WireEvent :=
  match f with
  | some f => frameEvents o f
  | none => []

/-- The event that raises OE, when R147 says so. -/
def raiseEvents (ph : Phase) (S : Snapshot) : List WireEvent :=
  if ph ≠ .blank ∧ dark S = false then [.oe true] else []

/-- The wire events of an expiry, in the order of R148. -/
def expiryEvents (s : State) : List WireEvent :=
  .oe false :: (shiftEvents s.cfg.bitOrder (phaseFrame (expiryPhase s) s.snap) ++
    raiseEvents (expiryPhase s) s.snap)

theorem shiftPhase_eq (ph : Phase) (S : Snapshot) (s : State) :
    shiftPhase ph S s = emitAll (shiftEvents s.cfg.bitOrder (phaseFrame ph S)) s := by
  cases ph <;> simp [shiftPhase, phaseFrame, shiftEvents, shiftFrame, emitAll]

theorem raiseOutput_eq (ph : Phase) (S : Snapshot) (s : State) :
    raiseOutput ph S s = emitAll (raiseEvents ph S) s := by
  unfold raiseOutput raiseEvents
  split <;> simp [emit, emitAll]

/-- R143: everything an expiry does, as one update. -/
def afterExpiry (s : State) : State :=
  { s with
    phase := expiryPhase s
    timerArmed := true
    timerLoad := expiryTicks s
    timerTrace := s.timerTrace ++ [expiryTicks s]
    lines := (expiryEvents s).foldl Lines.drive s.lines
    wireTrace := s.wireTrace ++ expiryEvents s }

@[simp] theorem afterExpiry_cfg (s : State) : (afterExpiry s).cfg = s.cfg := rfl
@[simp] theorem afterExpiry_lastVal (s : State) : (afterExpiry s).lastVal = s.lastVal := rfl
@[simp] theorem afterExpiry_lastDp (s : State) : (afterExpiry s).lastDp = s.lastDp := rfl
@[simp] theorem afterExpiry_lastAnim (s : State) : (afterExpiry s).lastAnim = s.lastAnim := rfl
@[simp] theorem afterExpiry_prevDigit (s : State) : (afterExpiry s).prevDigit = s.prevDigit := rfl
@[simp] theorem afterExpiry_animStep (s : State) : (afterExpiry s).animStep = s.animStep := rfl
@[simp] theorem afterExpiry_bMode (s : State) : (afterExpiry s).bMode = s.bMode := rfl
@[simp] theorem afterExpiry_bright (s : State) : (afterExpiry s).bright = s.bright := rfl
@[simp] theorem afterExpiry_snap (s : State) : (afterExpiry s).snap = s.snap := rfl
@[simp] theorem afterExpiry_phase (s : State) : (afterExpiry s).phase = expiryPhase s := rfl
@[simp] theorem afterExpiry_running (s : State) : (afterExpiry s).running = s.running := rfl
@[simp] theorem afterExpiry_timerArmed (s : State) : (afterExpiry s).timerArmed = true := rfl
@[simp] theorem afterExpiry_timerLoad (s : State) :
    (afterExpiry s).timerLoad = expiryTicks s := rfl
@[simp] theorem afterExpiry_lines (s : State) :
    (afterExpiry s).lines = (expiryEvents s).foldl Lines.drive s.lines := rfl
@[simp] theorem afterExpiry_pinMem (s : State) : (afterExpiry s).pinMem = s.pinMem := rfl
@[simp] theorem afterExpiry_wireTrace (s : State) :
    (afterExpiry s).wireTrace = s.wireTrace ++ expiryEvents s := rfl
@[simp] theorem afterExpiry_timerTrace (s : State) :
    (afterExpiry s).timerTrace = s.timerTrace ++ [expiryTicks s] := rfl
@[simp] theorem afterExpiry_pubCount (s : State) : (afterExpiry s).pubCount = s.pubCount := rfl
@[simp] theorem afterExpiry_refused (s : State) : (afterExpiry s).refused = s.refused := rfl
@[simp] theorem afterExpiry_inbox (s : State) : (afterExpiry s).inbox = s.inbox := rfl

theorem renderPhase_takeExpiry (s : State) : renderPhase (takeExpiry s) = afterExpiry s := by
  simp [renderPhase, shiftPhase_eq, raiseOutput_eq, emit, emitAll, arm, takeExpiry, afterExpiry,
    expiryEvents, expiryPhase, expiryTicks, List.foldl_append]

/-- R142, R143: TIMER_EXPIRY with an armed timer. -/
theorem execTimerExpiry_armed {s : State} (h : s.timerArmed = true) :
    execTimerExpiry s = .next (afterExpiry s) := by
  simp [execTimerExpiry, h, renderPhase_takeExpiry]

/-- R144 as a table: the phase entered from each phase. -/
theorem expiryPhase_eq (s : State) :
    expiryPhase s =
      match s.phase with
      | .showOld => .showNew
      | .showNew =>
        if s.snap.plan.blankTime < 500 then
          (if s.snap.plan.showOld < 1000 then .showNew else .showOld)
        else .blank
      | .blank => if s.snap.plan.showOld < 1000 then .showNew else .showOld := by
  unfold expiryPhase enter skipIntoNew skipIntoOld skipBlank skipOld tSkipBlank tSkipOld
  cases s.phase <;> simp [Phase.succ]
  all_goals (repeat' split) <;> simp_all

/-- R147, R185: the lines after an expiry that shows a frame. -/
theorem drive_expiryEvents_show (s : State) {f : BitFrame}
    (h : phaseFrame (expiryPhase s) s.snap = some f) (l : Lines) :
    (expiryEvents s).foldl Lines.drive l =
      { clk := true, data := f.chip0.getLsbD (bitIndex s.cfg.bitOrder 31),
        oe := !dark s.snap } := by
  have hp : expiryPhase s ≠ .blank := by
    intro hb; simp [hb, phaseFrame] at h
  by_cases hb : s.snap.b = 0 <;>
    simp [expiryEvents, h, shiftEvents, raiseEvents, hp, dark, hb, drive_frameEvents, Lines.drive,
      List.foldl_append]

/-- R147, R149: the lines after an expiry that enters Blank. -/
theorem drive_expiryEvents_blank (s : State) (h : expiryPhase s = .blank) (l : Lines) :
    (expiryEvents s).foldl Lines.drive l = { l with oe := false } := by
  simp [expiryEvents, h, phaseFrame, shiftEvents, raiseEvents, Lines.drive]

theorem phaseFrame_cases (ph : Phase) (S : Snapshot) :
    (ph = .blank ∧ phaseFrame ph S = none) ∨ (ph ≠ .blank ∧ ∃ f, phaseFrame ph S = some f) := by
  cases ph <;> simp [phaseFrame]

/-- R150 law 1: the floor. -/
theorem le_floorTicks (d : Nat) : tFloor ≤ floorTicks d := Nat.le_max_right _ _

theorem floorTicks_le {d m : Nat} (h : d ≤ m) (hm : tFloor ≤ m) : floorTicks d ≤ m :=
  Nat.max_le.2 ⟨h, hm⟩

end Sys2Proof.Machine
end

