-- ==== Sys2Proof/Laws/Memory.lean ====
section
/-! SUPPORT. The pin memory: every write keeps the canonical form, a read after a write to the same
entry gives the value written, and a write leaves every other entry alone. -/

namespace Sys2Proof.Machine

namespace Memory

theorem wf_nil : wf [] := by simp [wf]

theorem wf_tail {x : Host.Cell} {m : List Host.Cell} (h : wf (x :: m)) : wf m :=
  ⟨(List.pairwise_cons.1 h.1).2, fun e he => h.2 e (List.mem_cons_of_mem _ he)⟩

/-- Below the first listed key nothing is listed. -/
theorem read_unlisted {m : List Host.Cell} {a : Nat} (h : ∀ e ∈ m, a < e.1) :
    read m a = unlisted := by
  induction m with
  | nil => rfl
  | cons x m ih =>
    have hx : a < x.1 := h x (by simp)
    have hm : ∀ e ∈ m, a < e.1 := fun e he => h e (by simp [he])
    simp [read, ih hm]
    omega

/-- Every entry of the written list is the one written or was there before. -/
theorem mem_write {m : List Host.Cell} {a : Nat} {v : Pin} {e : Host.Cell}
    (h : e ∈ write m a v) : (e = (a, v) ∧ v ≠ unlisted) ∨ e ∈ m := by
  induction m with
  | nil =>
    simp only [write] at h
    split at h <;> simp_all
  | cons x m ih =>
    obtain ⟨b, w⟩ := x
    simp only [write] at h
    split at h
    · split at h <;> simp_all
    · split at h
      · split at h <;> simp_all
        tauto
      · rcases List.mem_cons.1 h with rfl | h
        · simp
        · rcases ih h with h | h <;> simp [h]

theorem wf_write {m : List Host.Cell} {a : Nat} {v : Pin} (h : wf m) (ha : a < pinCells) :
    wf (write m a v) := by
  refine ⟨?_, fun e he => ?_⟩
  · induction m with
    | nil => simp only [write]; split <;> simp
    | cons x m ih =>
      obtain ⟨b, w⟩ := x
      have hx := (List.pairwise_cons.1 h.1).1
      have hm := (List.pairwise_cons.1 h.1).2
      simp only [write]
      split
      · split
        · exact h.1
        · refine List.pairwise_cons.2 ⟨fun e he => ?_, h.1⟩
          rcases List.mem_cons.1 he with rfl | he
          · assumption
          · exact Nat.lt_trans ‹_› (hx e he)
      · split
        · split
          · exact hm
          · subst_vars; exact List.pairwise_cons.2 ⟨hx, hm⟩
        · refine List.pairwise_cons.2 ⟨fun e he => ?_, ih (wf_tail h)⟩
          rcases mem_write he with ⟨rfl, -⟩ | he
          · simp only; omega
          · exact hx e he
  · rcases mem_write he with ⟨rfl, hv⟩ | he
    · exact ⟨ha, hv⟩
    · exact h.2 e he

theorem read_write_same {m : List Host.Cell} {a : Nat} {v : Pin} (h : wf m) :
    read (write m a v) a = v := by
  induction m with
  | nil => simp only [write]; split <;> simp_all [read]
  | cons x m ih =>
    obtain ⟨b, w⟩ := x
    have hx := (List.pairwise_cons.1 h.1).1
    simp only [write]
    split
    · split
      · rename_i hab hv
        rw [hv]
        refine read_unlisted fun e he => ?_
        rcases List.mem_cons.1 he with rfl | he
        · exact hab
        · exact Nat.lt_trans hab (hx e he)
      · simp [read]
    · split
      · split
        · rename_i hab hv
          subst hab
          rw [hv]
          exact read_unlisted hx
        · simp [read]
      · rename_i h1 h2
        simp [read, ih (wf_tail h), Ne.symm h2]

theorem read_write_other (m : List Host.Cell) {a b : Nat} (v : Pin) (hab : b ≠ a) :
    read (write m a v) b = read m b := by
  induction m with
  | nil => simp only [write]; split <;> simp [read, Ne.symm hab]
  | cons x m ih =>
    obtain ⟨k, w⟩ := x
    simp only [write]
    split
    · split <;> simp [read, Ne.symm hab]
    · split
      · rename_i hak
        subst hak
        split <;> simp [read, Ne.symm hab]
      · simp [read, ih]

end Memory

/-- Two entries have one key only if they are one entry. -/
theorem pinAddr_inj {r c r' c' : Nat} (h : c < nDig) (h' : c' < nDig)
    (he : pinAddr r c = pinAddr r' c') : r = r' ∧ c = c' := by
  simp only [pinAddr, nDig] at *
  omega

/-- R90: the entries of the table, in numbers. -/
theorem pinIndexValid_iff {row : BitVec 3} {col : BitVec 4} :
    pinIndexValid row col = true ↔
      (row.toNat ≤ 5 ∧ col.toNat ≤ 9) ∨ (row.toNat = 6 ∧ col.toNat ≤ 4) := by
  simp only [pinIndexValid, Bool.or_eq_true, Bool.and_eq_true, decide_eq_true_eq]
  simp only [dpRow, nPos, nDig, nDp, Nat.lt_succ_iff]

theorem pinAddr_lt {row : BitVec 3} {col : BitVec 4} (h : pinIndexValid row col = true) :
    pinAddr row.toNat col.toNat < pinCells ∧ col.toNat < nDig := by
  rw [pinIndexValid_iff] at h
  simp only [pinAddr, pinCells, nPos, nDig, nDp]
  omega

end Sys2Proof.Machine
end

