-- ==== Sys2Proof/Laws/Exec.lean ====
section
/-! SUPPORT. Everything an operation can do, said once: the next states of `exec`, and the next
states and stops of `step`. -/

namespace Sys2Proof.Machine

/-- The ways an operation can end in a next state. -/
inductive Effect (s : State) : Instr → State → Prop where
  | same (v dp a) (h : changed v dp (Six.map (clampAnim s.cfg) a) s = false) :
      Effect s (.setDigits v dp a) s
  | digits (v dp a) (h : changed v dp (Six.map (clampAnim s.cfg) a) s = true) :
      Effect s (.setDigits v dp a) (renderDigits v dp (Six.map (clampAnim s.cfg) a) s)
  | fixed (pct) :
      Effect s (.setBrightness pct) (applyBrightness .fixed (bclamp s.cfg pct.toNat) s)
  | auto (lux) :
      Effect s (.setAutoBrightness lux)
        (applyBrightness .auto (bclamp s.cfg (Config.luxToB lux)) s)
  | expiry (h : s.timerArmed = true) : Effect s .timerExpiry (afterExpiry s)
  | start (d) (h : floorTicks d.toNat ≤ s.cfg.timerMax) (hr : s.running = false) :
      Effect s (.start d) (arm (floorTicks d.toNat) { s with running := true })
  | startLong (d) (h : ¬ floorTicks d.toNat ≤ s.cfg.timerMax) :
      Effect s (.start d) (refuse .delayOutOfRange s)
  | startTwice (d) (h : floorTicks d.toNat ≤ s.cfg.timerMax) (hr : s.running = true) :
      Effect s (.start d) (refuse .alreadyStarted s)
  | load (row col pin) (h : pinIndexValid row col = true) (hr : s.running = false) :
      Effect s (.loadPin row col pin) (pinWrite row.toNat col.toNat pin s)
  | loadBad (row col pin) (h : pinIndexValid row col = false) :
      Effect s (.loadPin row col pin) (refuse .pinIndexOutOfRange s)
  | loadLate (row col pin) (h : pinIndexValid row col = true) (hr : s.running = true) :
      Effect s (.loadPin row col pin) (refuse .tableImmutable s)

/-- Every next state of an operation is one of the effects. -/
theorem effect_of_exec {i : Instr} {s t : State} (h : exec i s = .next t) : Effect s i t := by
  cases i with
  | setDigits v dp a =>
    simp only [exec, execSetDigits] at h
    split at h <;> cases h
    · exact .digits _ _ _ ‹_›
    · exact .same _ _ _ (eq_false_of_ne_true ‹_›)
  | setBrightness pct => cases h; exact .fixed pct
  | setAutoBrightness lux => cases h; exact .auto lux
  | timerExpiry =>
    simp only [exec, execTimerExpiry] at h
    split at h <;> cases h
    exact renderPhase_takeExpiry s ▸ .expiry ‹_›
  | start d =>
    simp only [exec, execStart, delayInRange, decide_eq_true_eq] at h
    split at h
    · split at h <;> cases h
      · exact .startTwice _ ‹_› ‹_›
      · exact .start _ ‹_› (eq_false_of_ne_true ‹_›)
    · cases h; exact .startLong _ ‹_›
  | loadPin row col pin =>
    simp only [exec, execLoadPin] at h
    split at h
    · split at h <;> cases h
      · exact .loadLate _ _ _ ‹_› ‹_›
      · exact .load _ _ _ ‹_› (eq_false_of_ne_true ‹_›)
    · cases h; exact .loadBad _ _ _ (eq_false_of_ne_true ‹_›)

/-- Only TIMER_EXPIRY without an armed timer answers no next state. -/
theorem exec_stop {i : Instr} {s : State} (h : ∀ t, exec i s ≠ .next t) :
    i = .timerExpiry ∧ s.timerArmed = false ∧ exec i s = .refused .timerNotArmed := by
  cases i with
  | setDigits v dp a =>
    exfalso; simp only [exec, execSetDigits] at h
    split at h <;> exact h _ rfl
  | setBrightness pct => exact absurd rfl (h _)
  | setAutoBrightness lux => exact absurd rfl (h _)
  | timerExpiry =>
    simp only [exec, execTimerExpiry] at h ⊢
    split at h
    · exact absurd rfl (h _)
    · simp_all
  | start d =>
    exfalso; simp only [exec, execStart] at h
    repeat' split at h
    all_goals exact h _ rfl
  | loadPin row col pin =>
    exfalso; simp only [exec, execLoadPin] at h
    repeat' split at h
    all_goals exact h _ rfl

/-- No operation touches the parameters or the events still to come. -/
theorem Effect.keeps {i : Instr} {s t : State} (h : Effect s i t) :
    t.cfg = s.cfg ∧ t.inbox = s.inbox := by
  cases h <;> exact ⟨rfl, rfl⟩

/-- START's bit is never cleared by an operation. -/
theorem Effect.running {i : Instr} {s t : State} (h : Effect s i t) (hr : s.running = true) :
    t.running = true := by
  cases h <;> first | exact hr | rfl

/-- The ways a step can end in a next state. -/
inductive StepEffect (s : State) : State → Prop where
  | idle (h : s.inbox = []) (ht : s.timerArmed = false) : StepEffect s s
  | quiet (t) (h : s.inbox = []) (ht : s.timerArmed = true) (he : Effect s .timerExpiry t) :
      StepEffect s t
  | command (w i rest t) (h : s.inbox = .command w :: rest) (hd : decode s.cfg w = .ok i)
      (he : Effect { s with inbox := rest } i t) : StepEffect s t
  | undecodable (w r rest) (h : s.inbox = .command w :: rest) (hd : decode s.cfg w = .error r) :
      StepEffect s (refuse r { s with inbox := rest })
  | reset (rest) (h : s.inbox = .reset :: rest) :
      StepEffect s (resetEvent { s with inbox := rest })

/-- R12: a block steps through its events. -/
theorem step_wf {s : State} (h : s.cfg.wf = true) : step s = runEvent s := if_pos h

theorem step_not_wf {s : State} (h : ¬ s.cfg.wf = true) :
    step s = .refused .configIllFormed := if_neg h

/-- R71: what the next event does. -/
theorem runEvent_nil {s : State} (h : s.inbox = []) : runEvent s = runQuiet s := by
  simp [runEvent, h]

theorem runEvent_command {s : State} {w : Command} {rest : List Event}
    (h : s.inbox = .command w :: rest) : runEvent s = runCommand w { s with inbox := rest } := by
  simp [runEvent, h]

theorem runEvent_reset {s : State} {rest : List Event} (h : s.inbox = .reset :: rest) :
    runEvent s = .next (resetEvent { s with inbox := rest }) := by
  simp [runEvent, h]

theorem effect_of_step {s t : State} (h : step s = .next t) : s.cfg.wf ∧ StepEffect s t := by
  unfold step at h
  split at h
  · rename_i hc
    refine ⟨hc, ?_⟩
    unfold runEvent runQuiet runCommand at h
    split at h
    · split at h
      · exact .quiet _ ‹_› ‹_› (effect_of_exec h)
      · cases h; exact .idle ‹_› (eq_false_of_ne_true ‹_›)
    · split at h
      · exact .command _ _ _ _ ‹_› ‹_› (effect_of_exec h)
      · cases h; exact .undecodable _ _ _ ‹_› ‹_›
    · cases h; exact .reset _ ‹_›
  · cases h

/-- A run of `k + 1` steps is a step and a run of `k`. -/
theorem runFrom_succ (k : Nat) (s : State) :
    runFrom (k + 1) s = (match step s with
      | .next t => runFrom k t
      | .fault r => .fault r
      | .refused r => .refused r) := by
  simp only [runFrom, Host.Core.run]
  have hs : core.step s = step s := rfl
  rw [hs]
  cases step s <;> rfl

theorem runFrom_succ_next {k : Nat} {s t : State} (h : runFrom (k + 1) s = .next t) :
    ∃ u, step s = .next u ∧ runFrom k u = .next t := by
  rw [runFrom_succ] at h
  split at h
  · exact ⟨_, ‹_›, h⟩
  · cases h
  · cases h

/-- Whatever every step keeps, every run keeps. -/
theorem runFrom_induction {P : State → Prop} (hstep : ∀ s t, P s → step s = .next t → P t)
    {k : Nat} {s t : State} (hs : P s) (h : runFrom k s = .next t) : P t := by
  induction k generalizing s with
  | zero => cases h; exact hs
  | succ k ih =>
    obtain ⟨u, hu, hk⟩ := runFrom_succ_next h
    exact ih (hstep s u hs hu) hk

end Sys2Proof.Machine
end

