-- ==== Sys2Proof/Laws/PerInstr.lean ====
section
/-! SUPPORT. Per operation: its encoded word matches its own row of spec/30_encoding.md R92. -/

namespace Sys2Proof.Laws.TableRow

/-- The mask of each row of R92. -/
def maskOf : Instr → Command
  | .setDigits _ _ _ => 0xF800000000000000
  | .setBrightness _ => 0xFFFFFFFFFFFFFF00
  | .setAutoBrightness _ => 0xFFFFFFFF00000000
  | .timerExpiry => 0xFFFFFFFFFFFFFFFF
  | .start _ => 0xFFFFFFFF00000000
  | .loadPin _ _ _ => 0xFFFFFFFFFFF8F000

/-- The match of each row of R92. -/
def matchOf : Instr → Command
  | .setDigits _ _ _ => 0x1000000000000000
  | .setBrightness _ => 0x2000000000000000
  | .setAutoBrightness _ => 0x3000000000000000
  | .timerExpiry => 0x4000000000000000
  | .start _ => 0x5000000000000000
  | .loadPin _ _ _ => 0x6000000000000000

/-- The word of an operation selects it: its fixed bits are those of its row, whatever its operands
are. -/
def Statement (i : Instr) : Prop := encode i &&& maskOf i = matchOf i

theorem setDigits (val : Six Digit) (dp : Five Bool) (anim : Six AnimStep) :
    Statement (.setDigits val dp anim) := by
  simp only [Statement, encode, Instr.opcode, maskOf, matchOf, or_and_mask]
  simp (disch := decide) only [place_and_eq_zero]
  decide

theorem setBrightness (pct : BitVec 8) : Statement (.setBrightness pct) := by
  simp only [Statement, encode, Instr.opcode, maskOf, matchOf, or_and_mask]
  simp (disch := decide) only [place_and_eq_zero]
  decide

theorem setAutoBrightness (lux : BitVec 32) : Statement (.setAutoBrightness lux) := by
  simp only [Statement, encode, Instr.opcode, maskOf, matchOf, or_and_mask]
  simp (disch := decide) only [place_and_eq_zero]
  decide

theorem timerExpiry : Statement .timerExpiry := rfl

theorem start (delay : BitVec 32) : Statement (.start delay) := by
  simp only [Statement, encode, Instr.opcode, maskOf, matchOf, or_and_mask]
  simp (disch := decide) only [place_and_eq_zero]
  decide

theorem loadPin (row : BitVec 3) (col : BitVec 4) (pin : Pin) :
    Statement (.loadPin row col pin) := by
  simp only [Statement, encode, Instr.opcode, maskOf, matchOf, or_and_mask]
  simp (disch := decide) only [place_and_eq_zero]
  decide

end Sys2Proof.Laws.TableRow
end

