-- ==== Sys2Proof/Tests/Slice0.lean ====
section
/-! SUPPORT. Tests. Expected values come from spec/: 30_encoding.md section 5, the examples of 40 to
44 and the vectors of 95_test_vectors.md; none is the model's own answer. After them, for every
statement with hypotheses, a state and operands that meet them. -/

namespace Sys2Proof.Tests

open Sys2Proof.Machine

/-! ## Fixtures -/

/-- The state an outcome goes on with. -/
def nextOf (o : Host.Outcome State Fault Refusal) : State :=
  match o with
  | .next t => t
  | .fault _ => State.reset
  | .refused _ => State.reset

/-- Whether an outcome goes on. -/
def isNext (o : Host.Outcome State Fault Refusal) : Bool :=
  match o with
  | .next _ => true
  | .fault _ => false
  | .refused _ => false

theorem next_of_isNext {o : Host.Outcome State Fault Refusal} (h : isNext o = true) :
    o = .next (nextOf o) := by
  cases o with
  | next t => rfl
  | fault r => cases h
  | refused r => cases h

/-- Parameter set PA. -/
def pa : Config := Config.testSet

/-- PA with the other bit order. -/
def paLsb : Config := { pa with bitOrder := .lsbFirst }

/-- Pin table TT of 95_test_vectors.md section 1, by key; entry 64 is 0. -/
def ttPin (k : Nat) : Nat :=
  if k < 30 then k + 1 else if k < 60 then 101 + (k - 30) else if k < 62 then 31 + (k - 60)
  else 131 + (k - 62)

def ttMem : List Host.Cell := (List.range 64).map (fun k => (k, BitVec.ofNat 8 (ttPin k)))

/-- TT loaded and SET_BRIGHTNESS 100 done. -/
def ready : State :=
  { State.reset with
    pinMem := ttMem
    bright := 100
    snap := { old := .dark, new := .dark, plan := ⟨5000, 5000, 0⟩, b := 100 }
    pubCount := 1 }

/-- Started with duration 500, brightness `b`, its plan `p` and the phase `ph`. -/
def started (b : Nat) (p : TimingPlan) (ph : Phase) : State :=
  { State.reset with
    bright := b
    snap := { old := ⟨0x11111111, 0x22222222⟩, new := ⟨0x33333333, 0x44444444⟩, plan := p, b := b }
    phase := ph
    running := true
    timerArmed := true
    timerLoad := 500
    timerTrace := [500] }

/-- Started, nothing published yet, the phase still Blank. -/
def startedReset : State := nextOf (exec (.start 0) State.reset)

/-- Half brightness, started. -/
def half : State :=
  { startedReset with
    bright := 50
    snap := { old := .dark, new := .dark, plan := ⟨2500, 2500, 5000⟩, b := 50 } }

/-- Full brightness, started, in ShowNew. -/
def full : State :=
  { startedReset with
    bright := 100
    snap := { old := .dark, new := .dark, plan := ⟨5000, 5000, 0⟩, b := 100 }
    phase := .showNew }

/-- Full brightness at the last step of a crossfade. -/
def fullFaded : State :=
  { full with
    lastAnim := .fill 10
    animStep := 10
    snap := { old := .dark, new := .dark, plan := ⟨0, 10000, 0⟩, b := 100 } }

/-- Started dark; a bright snapshot comes and goes before the next expiry. -/
def flicker : State :=
  { startedReset with
    inbox := [.command 0x2000000000000064, .command 0x2000000000000000,
      .command 0x4000000000000000] }

/-! ## WellFormed -/

theorem test_wf_loadPin_lastDigit : (Instr.loadPin 5 9 1).wellFormed pa = true := by decide
theorem test_wf_loadPin_lastPoint : (Instr.loadPin 6 4 1).wellFormed pa = true := by decide
theorem test_illformed_loadPin_column : (Instr.loadPin 5 10 1).wellFormed pa = false := by decide
theorem test_illformed_loadPin_point : (Instr.loadPin 6 5 1).wellFormed pa = false := by decide
theorem test_illformed_loadPin_row : (Instr.loadPin 7 0 1).wellFormed pa = false := by decide
theorem test_wf_start_max : (Instr.start 65535).wellFormed pa = true := by decide
theorem test_illformed_start : (Instr.start 65536).wellFormed pa = false := by decide

theorem test_illformed_config :
    ({ pa with pwmMin := 10001 } : Config).wf = false ∧
    ({ pa with refreshPeriod := 65536 } : Config).wf = false ∧
    ({ pa with refreshPeriod := 400, pwmMin := 0, timerMax := 499 } : Config).wf = false ∧
    ({ pa with maxBrightness := 0 } : Config).wf = false ∧
    ({ pa with animN := 0 } : Config).wf = false ∧
    ({ pa with animN := 32 } : Config).wf = false := by decide

theorem test_build_refuses : State.build { pa with animN := 32 } = none := by decide

/-! ## Decoding: 30_encoding.md section 5 and V-DEC of 95_test_vectors.md -/

theorem test_decode_setDigits :
    decode pa 0x1000000000654321 = .ok (.setDigits ⟨1, 2, 3, 4, 5, 6⟩ (.fill false) (.fill 0)) := by
  rfl

theorem test_decode_setDigits_anim :
    decode pa 0x1042108420111111 = .ok (.setDigits (.fill 1) (.fill false) (.fill 1)) := by
  rfl

theorem test_decode_setDigits_dp :
    decode pa 0x100000001FFFFFFF = .ok (.setDigits (.fill 15) (.fill true) (.fill 0)) ∧
    decode pa 0x100000000A654321 =
      .ok (.setDigits ⟨1, 2, 3, 4, 5, 6⟩ ⟨false, true, false, true, false⟩ (.fill 0)) := ⟨rfl, rfl⟩

theorem test_decode_setBrightness :
    decode pa 0x2000000000000064 = .ok (.setBrightness 100) := by rfl

theorem test_decode_setAutoBrightness :
    decode pa 0x30000000000004D2 = .ok (.setAutoBrightness 1234) := by rfl

theorem test_decode_timerExpiry : decode pa 0x4000000000000000 = .ok .timerExpiry := by rfl

theorem test_decode_start : decode pa 0x50000000000001F4 = .ok (.start 500) := by rfl

theorem test_decode_loadPin : decode pa 0x6000000000050982 = .ok (.loadPin 5 9 130) := by rfl

theorem test_decode_reservedOpcode :
    decode pa 0x0000000000000000 = .error .reservedOpcode ∧
    decode pa 0x7000000000000000 = .error .reservedOpcode ∧
    decode pa 0xF000000000000000 = .error .reservedOpcode := ⟨rfl, rfl, rfl⟩

theorem test_decode_reservedBits :
    decode pa 0x1800000000000000 = .error .reservedBitsNonzero ∧
    decode pa 0x2000000000000100 = .error .reservedBitsNonzero ∧
    decode pa 0x3000000100000000 = .error .reservedBitsNonzero ∧
    decode pa 0x4000000000000001 = .error .reservedBitsNonzero ∧
    decode pa 0x5000000100000000 = .error .reservedBitsNonzero ∧
    decode pa 0x6000000000001000 = .error .reservedBitsNonzero ∧
    decode pa 0x6000000000071000 = .error .reservedBitsNonzero :=
  ⟨rfl, rfl, rfl, rfl, rfl, rfl, rfl⟩

theorem test_decode_pinIndex :
    decode pa 0x6000000000070000 = .error .pinIndexOutOfRange ∧
    decode pa 0x6000000000000A01 = .error .pinIndexOutOfRange ∧
    decode pa 0x6000000000060501 = .error .pinIndexOutOfRange := ⟨rfl, rfl, rfl⟩

theorem test_decode_delay :
    decode pa 0x500000000000FFFF = .ok (.start 65535) ∧
    decode pa 0x5000000000010000 = .error .delayOutOfRange := ⟨rfl, rfl⟩

theorem test_encode_setDigits :
    encode (.setDigits ⟨1, 2, 3, 4, 5, 9⟩ (.fill false) ⟨0, 0, 0, 0, 0, 31⟩) =
      0x17C0000000954321 := by decide

theorem test_decodeTableWord :
    decodeTableWord 64 0x2000000000000032 = some (.setBrightness 50) ∧
    decodeTableWord 64 0x4000000000000000 = some .timerExpiry := ⟨rfl, rfl⟩

/-! ## One step of each operation -/

/-- 43_transition_buffer.md R168, example. -/
theorem test_setDigits_frames :
    let t := nextOf (exec (.setDigits ⟨1, 2, 3, 4, 5, 6⟩ (.fill false) (.fill 0)) ready)
    t.snap = ⟨⟨0x00801002, 0x04008010⟩, ⟨0x00801002, 0x04008010⟩, ⟨5000, 5000, 0⟩, 100⟩ ∧
    t.prevDigit = .fill 15 := by decide +kernel

/-- R169 case 4: the animation step 31 acts as 10, and the old frame keeps digit 6. -/
theorem test_setDigits_crossfade :
    let s := nextOf (exec (.setDigits ⟨1, 2, 3, 4, 5, 6⟩ (.fill false) (.fill 0)) ready)
    let t := nextOf (exec (.setDigits ⟨1, 2, 3, 4, 5, 9⟩ (.fill false) ⟨0, 0, 0, 0, 0, 31⟩) s)
    t.snap = ⟨⟨0x00801002, 0x04008010⟩, ⟨0x00801002, 0x20008010⟩, ⟨0, 10000, 0⟩, 100⟩ ∧
    t.lastAnim.p5 = 10 ∧ t.animStep = 10 := by decide +kernel

/-- 41_timing_converter.md R130, example. -/
theorem test_setBrightness_half :
    let t := nextOf (exec (.setBrightness 50) State.reset)
    t.bright = 50 ∧ t.snap.plan = ⟨2500, 2500, 5000⟩ := by decide

/-- 30_encoding.md R89: a percentage above MAXBRIGHTNESS acts as MAXBRIGHTNESS. -/
theorem test_setBrightness_clamped :
    (nextOf (exec (.setBrightness 255) State.reset)).bright = 100 := by decide

/-- 41_timing_converter.md R131: whatever LUX_TO_B is, the form is AUTO and the result clamped. -/
theorem test_setAutoBrightness :
    let t := nextOf (exec (.setAutoBrightness 1234) State.reset)
    t.bMode = .auto ∧ t.bright ≤ 100 := ⟨rfl, Nat.min_le_right _ _⟩

/-- 42_frame_fsm.md R152, row Blank / (300, 300, 9400) / 0. -/
theorem test_timerExpiry_floor :
    let t := nextOf (exec .timerExpiry (started 0 ⟨300, 300, 9400⟩ .blank))
    t.phase = .showNew ∧ t.timerLoad = 500 ∧ t.lines.oe = false ∧ t.wireTrace.length = 323 := by
  decide +kernel

/-- 42_frame_fsm.md R152, row ShowNew / (5000, 4501, 499) / 100; R190: the chain and what it shows. -/
theorem test_timerExpiry_skipBlank :
    let t := nextOf (exec .timerExpiry (started 100 ⟨5000, 4501, 499⟩ .showNew))
    t.phase = .showOld ∧ t.timerLoad = 5000 ∧ t.lines.oe = true ∧
    (Observer.watch t.wireTrace).shown = 0x2222222211111111 := by decide +kernel

/-- 42_frame_fsm.md R141, example. -/
theorem test_start_floor :
    let t := nextOf (exec (.start 0) State.reset)
    t.running = true ∧ t.timerArmed = true ∧ t.timerLoad = 500 ∧ t.timerTrace = [500] := by decide

/-- 42_frame_fsm.md R141: a second START is refused, and the block goes on. -/
theorem test_start_twice :
    (nextOf (exec (.start 0) startedReset)).refused = some .alreadyStarted := by decide

/-- 40_bit_encoder.md R107, example: digit 9 at position 5 lights chip-1 bit 29. -/
theorem test_loadPin :
    let t := nextOf (exec (.loadPin 5 9 130) State.reset)
    pinRead t.pinMem 5 9 = 130 ∧
    encodeFrame t.pinMem ⟨15, 15, 15, 15, 15, 9⟩ (.fill false) = ⟨0, 0x20000000⟩ := by decide

/-- 40_bit_encoder.md R107: after START the table is immutable. -/
theorem test_loadPin_immutable :
    (nextOf (exec (.loadPin 0 0 5) startedReset)).refused = some .tableImmutable := by decide

/-- 41_timing_converter.md R128: the two ends of a crossfade. -/
theorem test_plan_crossfade :
    plan pa 100 1 = ⟨9000, 1000, 0⟩ ∧ plan pa 100 10 = ⟨0, 10000, 0⟩ := by decide

/-- 44_serial_link.md R190: the two orders of SHIFT_WORD(3), by the first bit sent. -/
theorem test_bitOrder :
    (wordEvents .msbFirst 3)[1]? = some (.data false) ∧
    (wordEvents .lsbFirst 3)[1]? = some (.data true) := by decide

/-- The word placed for the host runs as the first operation after reset. -/
theorem test_withFetchWord :
    (nextOf (step (State.reset.withFetchWord 64 0x5000000000000000))).running = true ∧
    (nextOf (step (State.reset.withFetchWord 64 0x4000000000000000))).phase = .showNew := by
  decide +kernel

/-! ## Hypotheses of the statements can be met -/

theorem test_meets_pa : pa.wf = true ∧ paLsb.wf = true := by decide

theorem ready_inv : BlockInv ready where
  config := by decide
  memory := by decide +kernel
  snap := ⟨by decide, by decide, by decide, by decide, by decide⟩
  anim := ⟨by decide, by decide⟩
  timer := ⟨by decide, by decide, by decide, by decide⟩
  wire := ⟨by decide, by decide, by decide, by decide⟩

theorem half_inv : BlockInv half where
  config := by decide
  memory := by decide
  snap := ⟨by decide, by decide, by decide, by decide, by decide⟩
  anim := ⟨by decide, by decide⟩
  timer := ⟨by decide, by decide, by decide, by decide⟩
  wire := ⟨by decide, by decide, by decide, by decide⟩

theorem startedReset_inv : BlockInv startedReset where
  config := by decide
  memory := by decide
  snap := ⟨by decide, by decide, by decide, by decide, by decide⟩
  anim := ⟨by decide, by decide⟩
  timer := ⟨by decide, by decide, by decide, by decide⟩
  wire := ⟨by decide, by decide, by decide, by decide⟩

theorem full_inv : BlockInv full where
  config := by decide
  memory := by decide
  snap := ⟨by decide, by decide, by decide, by decide, by decide⟩
  anim := ⟨by decide, by decide⟩
  timer := ⟨by decide, by decide, by decide, by decide⟩
  wire := ⟨by decide, by decide, by decide, by decide⟩

theorem fullFaded_inv : BlockInv fullFaded where
  config := by decide
  memory := by decide
  snap := ⟨by decide, by decide, by decide, by decide, by decide⟩
  anim := ⟨by decide, by decide⟩
  timer := ⟨by decide, by decide, by decide, by decide⟩
  wire := ⟨by decide, by decide, by decide, by decide⟩

/-- DecodeOfEncode, EncodeOfDecode: test_wf_loadPin_lastPoint and this. -/
theorem test_meets_decode : decode pa 0x6000000000060400 = .ok (.loadPin 6 4 0) := rfl

/-- DecodeRefusesReserved: each clause's premises, at a boundary. -/
theorem test_meets_reserved :
    (0x0FFFFFFFFFFFFFFF : Command).toNat / 2 ^ 60 = 0 ∧
    7 ≤ (0x7000000000000000 : Command).toNat / 2 ^ 60 ∧
    ((0x1800000000000000 : Command).toNat / 2 ^ 60 = 1 ∧
      (0x1800000000000000 : Command) &&& 0xF800000000000000 ≠ 0x1000000000000000) ∧
    ((0x2000000000000100 : Command).toNat / 2 ^ 60 = 2 ∧
      (0x2000000000000100 : Command) &&& 0xFFFFFFFFFFFFFF00 ≠ 0x2000000000000000) ∧
    ((0x3000000100000000 : Command).toNat / 2 ^ 60 = 3 ∧
      (0x3000000100000000 : Command) &&& 0xFFFFFFFF00000000 ≠ 0x3000000000000000) ∧
    ((0x4000000000000001 : Command).toNat / 2 ^ 60 = 4 ∧
      (0x4000000000000001 : Command) &&& 0xFFFFFFFFFFFFFFFF ≠ 0x4000000000000000) ∧
    ((0x5000000100000000 : Command).toNat / 2 ^ 60 = 5 ∧
      (0x5000000100000000 : Command) &&& 0xFFFFFFFF00000000 ≠ 0x5000000000000000) ∧
    ((0x6000000000080000 : Command).toNat / 2 ^ 60 = 6 ∧
      (0x6000000000080000 : Command) &&& 0xFFFFFFFFFFF8F000 ≠ 0x6000000000000000) := by decide

/-- DecodeReadsEveryField: each clause's premise. -/
theorem test_meets_rows :
    (0x17FFFFFFFFFFFFFF : Command) &&& 0xF800000000000000 = 0x1000000000000000 ∧
    (0x20000000000000FF : Command) &&& 0xFFFFFFFFFFFFFF00 = 0x2000000000000000 ∧
    (0x30000000FFFFFFFF : Command) &&& 0xFFFFFFFF00000000 = 0x3000000000000000 ∧
    (0x50000000FFFFFFFF : Command) &&& 0xFFFFFFFF00000000 = 0x5000000000000000 ∧
    (0x6000000000070FFF : Command) &&& 0xFFFFFFFFFFF8F000 = 0x6000000000000000 := by decide

/-- StepRunsDecodedCommand, StepMarksUndecodableWord, ResetEventRestoresEveryRegister: a state with
that event next. -/
theorem test_meets_events :
    pa.wf = true ∧ decode pa 0x2000000000000000 = .ok (.setBrightness 0) ∧
    ({ ready with inbox := [.command 0x2000000000000000, .reset] } : State).inbox =
      .command 0x2000000000000000 :: [.reset] ∧
    decode pa 0 = .error .reservedOpcode ∧
    ({ ready with inbox := [.reset] } : State).inbox = .reset :: [] := by
  refine ⟨by decide, rfl, rfl, rfl, rfl⟩

/-- StepWithNothingToCome: both clauses. -/
theorem test_meets_nothingToCome :
    ready.inbox = [] ∧ ready.timerArmed = false ∧ half.inbox = [] ∧ half.timerArmed = true := by
  decide

/-- StepStopsOnlyWithoutTimer: both stops. -/
theorem test_meets_stops :
    step { ready with inbox := [.command 0x4000000000000000] } = .refused .timerNotArmed ∧
    step { ready with cfg := { pa with animN := 0 } } = .refused .configIllFormed := ⟨rfl, rfl⟩

/-- BuildRefusesIllFormedConfig: both clauses, at TIMER_MAX's bound. -/
theorem test_meets_build :
    ¬ (pa.pwmMin ≤ pa.refreshPeriod ∧ max pa.refreshPeriod 500 ≤ 9999) ∧
    ({ pa with timerMax := 10000 } : Config).wf = true := by decide

/-- RunningBlockNeverStops. -/
theorem test_meets_running : BlockInv half ∧ half.running = true ∧ half.noReset :=
  ⟨half_inv, rfl, by unfold State.noReset; decide⟩

/-- RefusedMarkIsSticky, TableFixedOnceRunning. -/
theorem test_meets_sticky :
    let s := { half with refused := some .tableImmutable, inbox := [.command 0] }
    s.refused ≠ none ∧ Event.reset ∉ s.inbox ∧ s.running = true ∧
    isNext (runFrom 1 s) = true := by decide

/-- OneBitPerNonBlankDigit: under TT every digit entry names a bit, and entries of different
positions differ. -/
theorem test_meets_oneBit :
    (∀ i : Fin 6, ∀ d : Fin 10, (pinToBit (pinRead ttMem i.val d.val)).isSome = true) ∧
    ((List.finRange 6).flatMap (fun i =>
      (List.finRange 10).map (fun d => pinRead ttMem i.val d.val))).Nodup := by
  decide +kernel

/-- LoadPinWritesOneEntry: the clauses at the edges of the table. -/
theorem test_meets_loadPin :
    Memory.wf ([] : List Host.Cell) ∧ pinIndexValid 5 9 = true ∧ pinIndexValid 6 4 = true ∧
    pinIndexValid 5 10 = false ∧ pinIndexValid 6 5 = false ∧ pinIndexValid 7 0 = false := by decide

/-- PlanSumsToRefreshPeriod, PlanMonotoneInStep: the ends of both ranges. -/
theorem test_meets_plan :
    pa.wf = true ∧ 100 ≤ pa.maxBrightness ∧ 10 ≤ pa.animN ∧ 1 ≤ pa.tVis ∧
    plan pa 100 0 = ⟨5000, 5000, 0⟩ ∧ plan pa 0 0 = ⟨300, 300, 9400⟩ := by decide

/-- OutOfRangeOperandsActClamped: a percentage above the maximum. -/
theorem test_meets_clamp : pa.maxBrightness < (101 : BitVec 8).toNat := by decide

/-- StartResult: its three clauses. -/
theorem test_meets_start :
    max (65535 : BitVec 32).toNat 500 ≤ pa.timerMax ∧ State.reset.running = false ∧
    startedReset.running = true ∧ pa.timerMax < max (65536 : BitVec 32).toNat 500 := by decide

/-- TimerExpiryResult and the other statements about an expiry; TimerExpiryNeedsArmedTimer. -/
theorem test_meets_expiry :
    half.timerArmed = true ∧ isNext (exec .timerExpiry half) = true ∧
    State.reset.timerArmed = false := by decide

/-- OutputEnableAfterExpiry, FloorRaisesOnlyShowNew, SerialEventCounts, ObserverReceivesFrame: an
expiry into each phase. -/
theorem test_meets_phases :
    (nextOf (exec .timerExpiry half)).phase = .showOld ∧
    (nextOf (exec .timerExpiry { half with phase := .showOld })).phase = .showNew ∧
    (nextOf (exec .timerExpiry { half with phase := .showNew })).phase = .blank ∧
    (nextOf (exec .timerExpiry { half with cfg := paLsb })).cfg.bitOrder = .lsbFirst := by
  decide +kernel

/-- NoTwoConsecutiveBlanks: a Blank, a brightness change, another expiry. -/
theorem test_meets_blank :
    let t := nextOf (exec .timerExpiry { half with phase := .showNew })
    let o := execAll [.setBrightness 0, .setDigits (.fill 1) (.fill false) (.fill 5)] t
    t.phase = .blank ∧ isNext o = true ∧ isNext (exec .timerExpiry (nextOf o)) = true ∧
    Instr.timerExpiry ∉ [Instr.setBrightness 0, .setDigits (.fill 1) (.fill false) (.fill 5)] := by
  decide +kernel

/-- WiresStillUntilStart: commands but no START. -/
theorem test_meets_still :
    let s := { ready with inbox := [.command 0x2000000000000032, .command 0x5000000000010000] }
    s.timerArmed = false ∧ Event.reset ∉ s.inbox ∧ isNext (runFrom 3 s) = true ∧
    decode pa 0x5000000000010000 = .error .delayOutOfRange := by
  refine ⟨rfl, by decide, by decide, rfl⟩

/-- SteadyCycles: the four rows of 42_frame_fsm.md section 4, two expiries each. -/
theorem test_meets_cycles :
    let two := fun p => execAll [.timerExpiry, .timerExpiry] (started 100 p .blank)
    isNext (two ⟨1000, 8500, 500⟩) = true ∧ isNext (two ⟨1000, 8501, 499⟩) = true ∧
    isNext (two ⟨999, 8501, 500⟩) = true ∧ isNext (two ⟨999, 8502, 499⟩) = true := by
  decide +kernel

/-- ThreePhaseCycleLength. -/
theorem test_meets_threePhase :
    BlockInv half ∧ 1000 ≤ half.snap.plan.showOld ∧ 500 ≤ half.snap.plan.blankTime ∧
    isNext (execAll [.timerExpiry, .timerExpiry, .timerExpiry] half) = true :=
  ⟨half_inv, by decide, by decide, by decide +kernel⟩

/-- SkippedPhaseCycleLength: a state for each clause. -/
theorem test_meets_skippedPhase :
    (BlockInv full ∧ 1000 ≤ full.snap.plan.showOld ∧ full.snap.plan.blankTime < 500 ∧
      full.phase ≠ .blank ∧ isNext (execAll [.timerExpiry, .timerExpiry] full) = true) ∧
    (BlockInv startedReset ∧ startedReset.snap.plan.showOld < 1000 ∧
      500 ≤ startedReset.snap.plan.blankTime ∧ startedReset.phase ≠ .showOld ∧
      isNext (execAll [.timerExpiry, .timerExpiry] startedReset) = true) ∧
    (BlockInv fullFaded ∧ fullFaded.snap.plan.showOld < 1000 ∧
      fullFaded.snap.plan.blankTime < 500 ∧ fullFaded.phase = .showNew ∧
      isNext (execAll [.timerExpiry, .timerExpiry] fullFaded) = true) :=
  ⟨⟨full_inv, by decide, by decide, by decide, by decide +kernel⟩,
   ⟨startedReset_inv, by decide, by decide, by decide, by decide +kernel⟩,
   ⟨fullFaded_inv, by decide, by decide, by decide, by decide +kernel⟩⟩

/-- DarkRunNeverRaisesOutput: bright after the first step, dark again when the expiry comes. -/
theorem test_meets_dark :
    (∀ j u, j < 3 → runFrom j flicker = .next u → u.expiresNext → u.snap.b = 0) ∧
    (nextOf (runFrom 1 flicker)).snap.b = 100 ∧ isNext (runFrom 3 flicker) = true ∧
    WireEvent.oe true ∉ flicker.wireTrace := by
  refine ⟨fun j u hj h he => ?_, by decide, by decide +kernel, by decide⟩
  match j with
  | 0 => cases h; rfl
  | 1 =>
    cases h
    obtain ⟨-, he | ⟨w, rest, hw, hd⟩⟩ := he
    · cases he
    · cases hw; cases hd
  | 2 => cases h; rfl

/-- SetDigitsResult: the no-op, and a change with and without a crossfade. -/
theorem test_meets_setDigits :
    changed (.fill 15) (.fill false) (.fill 0) State.reset = false ∧
    changed (.fill 10) (.fill false) (.fill 0) State.reset = true ∧
    changed (.fill 15) (.fill false) (.fill 1) State.reset = true := by decide

/-- CrossfadeSweep: steps 1 and ANIM_N. -/
theorem test_meets_sweep :
    BlockInv ready ∧ 1 ≤ (1 : AnimStep).toNat ∧ (10 : AnimStep).toNat ≤ ready.cfg.animN ∧
    isNext (execAll [.setDigits (.fill 1) (.fill false) (.fill 1),
      .setDigits (.fill 1) (.fill false) (.fill 10)] ready) = true :=
  ⟨ready_inv, by decide, by decide, by decide +kernel⟩

/-- DisplayShowsRequestedDigits: digits 1 to 6 with step 10, then the expiry that shows them; the
pins are R190's. -/
theorem test_meets_display :
    let s := { ready with running := true, timerArmed := true }
    let t := nextOf (exec (.setDigits ⟨1, 2, 3, 4, 5, 6⟩ (.fill false) (.fill 10)) s)
    let u := nextOf (exec .timerExpiry t)
    s.cfg.bitOrder = .msbFirst ∧ s.bright ≠ 0 ∧ t.pubCount ≠ s.pubCount ∧ u.phase = .showNew ∧
    isNext (exec .timerExpiry t) = true ∧
    (Observer.watch u.wireTrace).shown = 0x0400801000801002 := by decide +kernel

/-- WiresNeverShiftThrough, StepKeepsInvariant. -/
theorem test_meets_step :
    BlockInv half ∧ traceSafe .reset half.wireTrace = true ∧ isNext (step half) = true :=
  ⟨half_inv, by decide, by decide +kernel⟩

/-- AccessTable, PublishIsWhole, BrightnessFormNeverRead: every operation goes on from one state. -/
theorem test_meets_every_operation :
    isNext (exec (.setDigits (.fill 1) (.fill true) (.fill 3)) half) = true ∧
    isNext (exec (.setBrightness 7) half) = true ∧
    isNext (exec (.setAutoBrightness 7) half) = true ∧
    isNext (exec .timerExpiry half) = true ∧
    isNext (exec (.start 7) half) = true ∧
    isNext (exec (.loadPin 0 0 7) half) = true := by decide

/-- ExpiryReadsOnlySnapshotAndPhase: two states that differ elsewhere. -/
theorem test_meets_sameSnapshot :
    let s' := { half with bright := 3, pinMem := ttMem, wireTrace := [.delay] }
    s'.cfg = half.cfg ∧ s'.snap = half.snap ∧ s'.phase = half.phase ∧ s'.timerArmed = true ∧
    s' ≠ half := by decide

/-- EveryRunMeetsInvariant: a program of three events and a fourth step. -/
theorem test_meets_run :
    isNext (runFrom 4 { State.resetWith pa with
      inbox := [.command 0x50000000000001F4, .command 0x4000000000000000, .reset] }) = true := by
  decide +kernel

end Sys2Proof.Tests
end

section
/-! Pin memory (spec/20_memory.md): the map from pin numbers to driver outputs. -/

namespace Sys2Proof.Machine

/-- R64: the pins outside both chips' ranges name no bit. -/
theorem pinToBit_eq_none {p : Pin}
    (h : p.toNat = 0 ∨ (33 ≤ p.toNat ∧ p.toNat ≤ 100) ∨ 133 ≤ p.toNat) : pinToBit p = none := by
  refine Option.eq_none_iff_forall_ne_some.2 fun ⟨c, k⟩ hp => ?_
  obtain ⟨hk, hpin⟩ := pinToBit_eq_some.1 hp
  cases c with
  | chip0 => have : p.toNat = k + 1 := hpin; omega
  | chip1 => have : p.toNat = k + 101 := hpin; omega

/-- Settles O14, by the characterisation of the pins that name a given bit. -/
theorem pinToBitMap : Obligations.PinToBitMap := by
  unfold Obligations.PinToBitMap
  refine fun p => ⟨fun hlo hhi => ?_, fun hlo hhi => ?_, pinToBit_eq_none⟩
  · exact pinToBit_eq_some.2 ⟨by omega, (Nat.sub_add_cancel hlo).symm⟩
  · exact pinToBit_eq_some.2 ⟨by omega, (Nat.sub_add_cancel hlo).symm⟩

end Sys2Proof.Machine
end

section
/-! Command words (spec/30_encoding.md): the rows of R92's match-and-mask table, what `decode`
answers for a word that matches its row and for one that does not, and the fields as numbers. -/

namespace Sys2Proof

open Machine

/-! ## Fields as numbers (R80, R82 to R87) -/

theorem extract_toNat (w : Command) (lo n : Nat) :
    (w.extractLsb' lo n).toNat = w.toNat / 2 ^ lo % 2 ^ n := by
  rw [BitVec.extractLsb'_toNat, Nat.shiftRight_eq_div_pow]

theorem extract_eq_ofNat (w : Command) (lo n : Nat) :
    w.extractLsb' lo n = BitVec.ofNat n (w.toNat / 2 ^ lo % 2 ^ n) :=
  BitVec.eq_of_toNat_eq (by rw [extract_toNat, BitVec.toNat_ofNat, Nat.mod_mod])

/-- A field that begins at bit 0 is the word cut to the field's width. -/
theorem extract_zero_eq_ofNat (w : Command) (n : Nat) :
    w.extractLsb' 0 n = BitVec.ofNat n w.toNat := rfl

theorem opOf_toNat (w : Command) : (opOf w).toNat = w.toNat / 2 ^ 60 := by
  rw [opOf, extract_toNat]
  exact Nat.mod_eq_of_lt (Nat.div_lt_of_lt_mul w.isLt)

theorem opOf_eq_iff {w : Command} {op : BitVec 4} :
    opOf w = op ↔ w.toNat / 2 ^ 60 = op.toNat := by
  rw [← BitVec.toNat_inj, opOf_toNat]

theorem digitsOf_get (w : Command) (i : Fin 6) :
    (digitsOf w).get i = w.extractLsb' (4 * i.val) 4 := by
  fin_cases i <;> rfl

theorem dpOf_get (w : Command) (j : Fin 5) : (dpOf w).get j = w.getLsbD (24 + j.val) := by
  fin_cases j <;> rfl

theorem animOf_get (w : Command) (i : Fin 6) :
    (animOf w).get i = w.extractLsb' (29 + 5 * i.val) 5 := by
  fin_cases i <;> rfl

/-! ## Rows (R90, R92) -/

/-- The mask of an op code's row: the op field and every reserved bit. -/
def rowMask (op : BitVec 4) : Command := opMask ||| ~~~(fieldMask op)

/-- The match of an op code's row: the op code, every reserved bit zero. -/
def rowMatch (op : BitVec 4) : Command := place op 60

/-- R90's `w & ~mask(op) & ~fieldmask(op)`, for the word's own op code. -/
def reservedBits (w : Command) : Command := w &&& ~~~opMask &&& ~~~(fieldMask (opOf w))

theorem and_opMask (w : Command) : w &&& opMask = rowMatch (opOf w) := by
  have hmask : opMask = place (BitVec.allOnes 4) 60 := rfl
  apply BitVec.eq_of_getLsbD_eq
  intro j hj
  rw [hmask, rowMatch, BitVec.getLsbD_and, place_getLsbD _ _ hj, place_getLsbD _ _ hj, opOf,
    BitVec.getLsbD_extractLsb', BitVec.getLsbD_allOnes]
  by_cases h : 60 ≤ j
  · rw [Nat.add_sub_cancel' h]
    ac_rfl
  · simp [h]

theorem rowMatch_and_fields (op : BitVec 4) : rowMatch op &&& ~~~opMask = 0#64 :=
  place_and_eq_zero op 60 _ (by decide)

theorem reservedBits_and_fields (w : Command) :
    reservedBits w &&& ~~~opMask = reservedBits w := by
  rw [reservedBits, BitVec.and_assoc (w &&& _), BitVec.and_comm (~~~fieldMask _),
    ← BitVec.and_assoc, BitVec.and_assoc w, BitVec.and_self]

theorem opOf_rowMatch (op : BitVec 4) : opOf (rowMatch op) = op :=
  extract_place_same op 60 (by decide)

/-- A row's mask reads the op code and the reserved bits. -/
theorem and_rowMask (w : Command) :
    w &&& rowMask (opOf w) = rowMatch (opOf w) ||| reservedBits w := by
  rw [← and_opMask, rowMask, reservedBits]
  apply BitVec.eq_of_getLsbD_eq
  intro j hj
  simp only [BitVec.getLsbD_and, BitVec.getLsbD_or, BitVec.getLsbD_not, hj, decide_true,
    Bool.true_and]
  cases w.getLsbD j <;> cases opMask.getLsbD j <;> rfl

/-- Every row's mask holds the whole op field. -/
theorem opOf_and_rowMask (w : Command) (op : BitVec 4) : opOf (w &&& rowMask op) = opOf w := by
  have hmask : opMask.extractLsb' 60 4 = BitVec.allOnes 4 := rfl
  rw [opOf, rowMask, BitVec.extractLsb'_and, BitVec.extractLsb'_or, hmask, BitVec.allOnes_or,
    BitVec.and_allOnes, opOf]

/-- R92: a word matches the row of `op` when that is its op code and its reserved bits are zero. -/
theorem and_rowMask_eq_iff {w : Command} {op : BitVec 4} :
    w &&& rowMask op = rowMatch op ↔ opOf w = op ∧ reservedBits w = 0#64 := by
  constructor
  · intro h
    have hop : opOf w = op := by rw [← opOf_and_rowMask w op, h, opOf_rowMatch]
    subst hop
    refine ⟨rfl, ?_⟩
    have hfields : (rowMatch (opOf w) ||| reservedBits w) &&& ~~~opMask = 0#64 := by
      rw [← and_rowMask, h, rowMatch_and_fields]
    rwa [or_and_mask, rowMatch_and_fields, BitVec.zero_or, reservedBits_and_fields] at hfields
  · rintro ⟨rfl, hzero⟩
    rw [and_rowMask, hzero, BitVec.or_zero]

/-! ## The decoder on a row -/

/-- R91: the op codes that name an operation are 1 to 6. -/
theorem readFields_eq_none_iff {w : Command} :
    readFields w = none ↔ (opOf w).toNat = 0 ∨ 7 ≤ (opOf w).toNat := by
  unfold readFields
  split
  case h_7 =>
    refine ⟨fun _ => ?_, fun _ => rfl⟩
    simp only [imp_false] at *
    omega
  all_goals exact ⟨nofun, fun _ => by omega⟩

theorem decode_reservedOpcode (c : Config) {w : Command} (h : readFields w = none) :
    decode c w = .error .reservedOpcode := by
  rw [decode, h]

theorem decode_reservedBitsNonzero (c : Config) {w : Command} (hop : readFields w ≠ none)
    (hbits : reservedBits w ≠ 0#64) : decode c w = .error .reservedBitsNonzero := by
  obtain ⟨i, hi⟩ := Option.ne_none_iff_exists'.1 hop
  rw [decode, hi]
  exact if_pos hbits

theorem decode_eq_checkRange (c : Config) {w : Command} {i : Instr} (hi : readFields w = some i)
    (hbits : reservedBits w = 0#64) : decode c w = checkRange c i := by
  rw [decode, hi]
  exact if_neg (not_not_intro hbits)

/-- A word with an op code of 1 to 6 that does not match its row is refused. -/
theorem decode_of_row_mismatch (c : Config) {w : Command} (op : BitVec 4)
    (hrow : 1 ≤ op.toNat ∧ op.toNat ≤ 6) (hop : w.toNat / 2 ^ 60 = op.toNat)
    (h : w &&& rowMask op ≠ rowMatch op) : decode c w = .error .reservedBitsNonzero := by
  have hw : opOf w = op := opOf_eq_iff.2 hop
  refine decode_reservedBitsNonzero c ?_ fun hzero => h (and_rowMask_eq_iff.2 ⟨hw, hzero⟩)
  rw [Ne, readFields_eq_none_iff, hw]
  omega

/-- A word that matches a row is read by that row's format and then checked for its ranges. -/
theorem decode_of_row_match (c : Config) {w : Command} (op : BitVec 4) {i : Instr}
    (h : w &&& rowMask op = rowMatch op) (hi : opOf w = op → readFields w = some i) :
    decode c w = checkRange c i := by
  obtain ⟨hop, hzero⟩ := and_rowMask_eq_iff.1 h
  exact decode_eq_checkRange c (hi hop) hzero

/-- Settles O3: each clause's mask and match are the row's, and a word that fails its row's match
has a nonzero reserved bit. -/
theorem decodeRefusesReserved : Obligations.DecodeRefusesReserved := by
  unfold Obligations.DecodeRefusesReserved
  intro c w
  exact ⟨fun h => decode_reservedOpcode c (readFields_eq_none_iff.2 (opOf_toNat w ▸ h)),
    decode_of_row_mismatch c 1 (by decide), decode_of_row_mismatch c 2 (by decide),
    decode_of_row_mismatch c 3 (by decide), decode_of_row_mismatch c 4 (by decide),
    decode_of_row_mismatch c 5 (by decide), decode_of_row_mismatch c 6 (by decide)⟩

/-! ## The six formats (R82 to R87) -/

theorem readFields_setDigits {w : Command} (h : opOf w = 1) :
    readFields w = some (.setDigits (digitsOf w) (dpOf w) (animOf w)) := by
  rw [readFields, h]; rfl

theorem readFields_setBrightness {w : Command} (h : opOf w = 2) :
    readFields w = some (.setBrightness (w.extractLsb' 0 8)) := by
  rw [readFields, h]; rfl

theorem readFields_setAutoBrightness {w : Command} (h : opOf w = 3) :
    readFields w = some (.setAutoBrightness (w.extractLsb' 0 32)) := by
  rw [readFields, h]; rfl

theorem readFields_timerExpiry {w : Command} (h : opOf w = 4) :
    readFields w = some .timerExpiry := by
  rw [readFields, h]; rfl

theorem readFields_start {w : Command} (h : opOf w = 5) :
    readFields w = some (.start (w.extractLsb' 0 32)) := by
  rw [readFields, h]; rfl

theorem readFields_loadPin {w : Command} (h : opOf w = 6) :
    readFields w =
      some (.loadPin (w.extractLsb' 16 3) (w.extractLsb' 8 4) (w.extractLsb' 0 8)) := by
  rw [readFields, h]; rfl

theorem delayInRange_iff {c : Config} {delay : BitVec 32} :
    delayInRange c delay = true ↔ max delay.toNat 500 ≤ c.timerMax :=
  decide_eq_true_iff

/-- Settles O4: a word that matches a row decodes to that row's operation, its fields read as
numbers and its two range checks in numbers. -/
theorem decodeReadsEveryField : Obligations.DecodeReadsEveryField := by
  unfold Obligations.DecodeReadsEveryField
  intro c w
  refine ⟨fun h => ?setDigits, fun h => ?setBrightness, fun h => ?setAutoBrightness,
    fun h => ?timerExpiry, fun h => ?start, fun h => ?loadPin⟩
  case setDigits =>
    refine ⟨digitsOf w, dpOf w, animOf w, decode_of_row_match c 1 h readFields_setDigits,
      fun i => ?_, dpOf_get w, fun i => ?_⟩
    · rw [digitsOf_get, extract_toNat]
    · rw [animOf_get, extract_toNat]
  case setBrightness => exact decode_of_row_match c 2 h readFields_setBrightness
  case setAutoBrightness => exact decode_of_row_match c 3 h readFields_setAutoBrightness
  case timerExpiry =>
    subst h
    exact decode_of_row_match c 4 rfl readFields_timerExpiry
  case start =>
    rw [decode_of_row_match c 5 h readFields_start, checkRange]
    simp only [delayInRange_iff, extract_zero_eq_ofNat, BitVec.toNat_ofNat]
  case loadPin =>
    rw [decode_of_row_match c 6 h readFields_loadPin, checkRange]
    simp only [pinIndexValid_iff, extract_toNat, extract_zero_eq_ofNat]
    rw [extract_eq_ofNat w 16 3, extract_eq_ofNat w 8 4]

end Sys2Proof
end

section
/-! Bit Encoder (spec/40_bit_encoder.md): the bits of ENCODE's two words, element by element. -/

namespace Sys2Proof.Machine

/-- R101: a property of some lit element's pin, told apart by digits and decimal points. -/
theorem exists_mem_litPins {m : List Host.Cell} {dig : Six Digit} {dp : Five Bool}
    {P : Pin → Prop} :
    (∃ p ∈ litPins m dig dp, P p) ↔
      (∃ i : Fin 6, (dig.get i).toNat ≤ 9 ∧ P (pinRead m i.val (dig.get i).toNat)) ∨
      (∃ j : Fin 5, dp.get j = true ∧ P (pinRead m 6 j.val)) := by
  constructor
  · rintro ⟨p, hp, hP⟩
    obtain ⟨i, hi, rfl⟩ | ⟨j, hj, rfl⟩ := mem_litPins.1 hp
    · exact .inl ⟨i, hi, hP⟩
    · exact .inr ⟨j, hj, hP⟩
  · rintro (⟨i, hi, hP⟩ | ⟨j, hj, hP⟩)
    · exact ⟨_, mem_litPins.2 (.inl ⟨i, hi, rfl⟩), hP⟩
    · exact ⟨_, mem_litPins.2 (.inr ⟨j, hj, rfl⟩), hP⟩

/-- R101: the bits ENCODE sets in a chip's word are those the lit digits and points name. -/
theorem encodeFrame_word_getLsbD (m : List Host.Cell) (dig : Six Digit) (dp : Five Bool)
    (c : Chip) {k : Nat} (hk : k < 32) :
    ((encodeFrame m dig dp).word c).getLsbD k = true ↔
      (∃ i : Fin 6, (dig.get i).toNat ≤ 9 ∧
        pinToBit (pinRead m i.val (dig.get i).toNat) = some (c, k)) ∨
      (∃ j : Fin 5, dp.get j = true ∧ pinToBit (pinRead m 6 j.val) = some (c, k)) :=
  (encodeFrame_getLsbD m dig dp c hk).trans exists_mem_litPins

/-- Settles O15, by the characterisation of the lit bits for either chip. -/
theorem encodeSetsExactlyTheLitBits : Obligations.EncodeSetsExactlyTheLitBits := by
  unfold Obligations.EncodeSetsExactlyTheLitBits
  exact fun m dig dp k hk => ⟨encodeFrame_word_getLsbD m dig dp .chip0 hk,
    encodeFrame_word_getLsbD m dig dp .chip1 hk⟩

end Sys2Proof.Machine
end

section
/-! Timing Converter (spec/41_timing_converter.md): PLAN's formula, and the next states of the two
brightness operations. -/

namespace Sys2Proof.Machine

/-- Settles O19, by R122's split: no crossfade at step 0, the clamped `raw` at any other step. -/
theorem planFormula : Obligations.PlanFormula := by
  unfold Obligations.PlanFormula
  intro c b s
  by_cases hs : s = 0
  · subst hs
    exact plan_step_zero b
  · simp only [if_neg hs]
    exact plan_step_pos b hs

/-- R130, R131: the two operations differ in the form and in the brightness they clamp. -/
theorem applyBrightness_eq (mode : BMode) (b : Nat) (s : State) :
    applyBrightness mode b s =
      { s with
        bMode := mode
        bright := b
        snap := ⟨s.snap.old, s.snap.new, plan s.cfg b s.animStep.toNat, b⟩
        pubCount := s.pubCount + 1 } := rfl

theorem exec_setBrightness (pct : BitVec 8) (s : State) :
    exec (.setBrightness pct) s =
      .next (applyBrightness .fixed (bclamp s.cfg pct.toNat) s) := rfl

theorem exec_setAutoBrightness (lux : BitVec 32) (s : State) :
    exec (.setAutoBrightness lux) s =
      .next (applyBrightness .auto (bclamp s.cfg (Config.luxToB lux)) s) := rfl

/-- Settles O22: the form FIXED with the clamped percentage, republished. -/
theorem setBrightnessResult : Obligations.SetBrightnessResult := by
  unfold Obligations.SetBrightnessResult
  intro s pct
  rw [exec_setBrightness, applyBrightness_eq, bclamp]

/-- Settles O23: the form AUTO with the clamped value of LUX_TO_B, republished. -/
theorem setAutoBrightnessResult : Obligations.SetAutoBrightnessResult := by
  unfold Obligations.SetAutoBrightnessResult
  intro s lux
  rw [exec_setAutoBrightness, applyBrightness_eq, bclamp]

end Sys2Proof.Machine
end

section
/-! Frame State Machine (spec/42_frame_fsm.md): TIMER_EXPIRY's next state, the level of OE
it leaves, and the progress of a started block. -/

namespace Sys2Proof.Machine

/-! ## An expiry (R143 to R149) -/

/-- Every next state of TIMER_EXPIRY is the one update `afterExpiry`, from an armed timer. -/
theorem exec_timerExpiry_next {s t : State} (h : exec .timerExpiry s = .next t) :
    s.timerArmed = true ∧ t = afterExpiry s := by
  cases effect_of_exec h with
  | expiry ht => exact ⟨ht, rfl⟩

/-- R144: the two guards in numbers, Blank's first. -/
theorem enter_eq (c : Phase) (p : TimingPlan) :
    enter c p =
      let c' := if c = .blank ∧ p.blankTime < 500 then .showOld else c
      if c' = .showOld ∧ p.showOld < 1000 then .showNew else c' := by
  simp only [enter, skipIntoNew, skipIntoOld, skipOld, skipBlank, decide_eq_true_eq]

/-- R182: the last bit of a word sent. -/
theorem bitIndex_last (o : BitOrder) :
    bitIndex o 31 = match o with | .msbFirst => 0 | .lsbFirst => 31 := by
  cases o <;> rfl

/-- R146: the duration an expiry arms, in numbers. -/
theorem expiryTicks_eq (s : State) :
    expiryTicks s = max (phaseTicks (expiryPhase s) s.snap.plan) 500 := rfl

/-- R147: whether a phase shown from a snapshot enables the outputs. -/
def outputEnabled (ph : Phase) (S : Snapshot) : Bool := decide (ph ≠ .blank ∧ S.b ≠ 0)

theorem raiseEvents_eq (ph : Phase) (S : Snapshot) :
    raiseEvents ph S = if outputEnabled ph S then [.oe true] else [] := by
  simp only [raiseEvents, outputEnabled, dark, decide_eq_false_iff_not, decide_eq_true_eq, ne_eq]

/-- R147, R149, R185: the lines after an expiry, by what the entered phase shifts out. -/
theorem drive_expiryEvents (s : State) :
    (expiryEvents s).foldl Lines.drive s.lines =
      match phaseFrame (expiryPhase s) s.snap with
      | some f =>
        { clk := true
          data := f.chip0.getLsbD (match s.cfg.bitOrder with | .msbFirst => 0 | .lsbFirst => 31)
          oe := outputEnabled (expiryPhase s) s.snap }
      | none => { clk := s.lines.clk, data := s.lines.data, oe := false } := by
  obtain ⟨hp, hf⟩ | ⟨hp, f, hf⟩ := phaseFrame_cases (expiryPhase s) s.snap
  · rw [drive_expiryEvents_blank s hp, hf]
  · rw [drive_expiryEvents_show s hf, hf, bitIndex_last]
    simp [outputEnabled, dark, hp, decide_not]

/-- R148: the wire trace after an expiry. -/
theorem append_expiryEvents (s : State) :
    s.wireTrace ++ expiryEvents s =
      s.wireTrace ++ [.oe false] ++
        shiftEvents s.cfg.bitOrder (phaseFrame (expiryPhase s) s.snap) ++
        (if outputEnabled (expiryPhase s) s.snap then [.oe true] else []) := by
  rw [expiryEvents, raiseEvents_eq]
  simp only [List.append_assoc, List.cons_append, List.nil_append]

/-- R147: the level of OE an expiry leaves. -/
theorem afterExpiry_oe (s : State) :
    (afterExpiry s).lines.oe = outputEnabled (expiryPhase s) s.snap := by
  rw [afterExpiry_lines, drive_expiryEvents]
  obtain ⟨hp, hf⟩ | ⟨-, f, hf⟩ := phaseFrame_cases (expiryPhase s) s.snap
  · rw [hf, hp]
    rfl
  · rw [hf]

/-- Settles O28, by the level of OE that the handler's update leaves. -/
theorem outputEnableAfterExpiry : Obligations.OutputEnableAfterExpiry := by
  unfold Obligations.OutputEnableAfterExpiry
  intro s t h
  obtain ⟨-, rfl⟩ := exec_timerExpiry_next h
  rw [afterExpiry_oe, afterExpiry_phase, outputEnabled, decide_eq_true_iff]

/-- Settles O26, field by field of the handler's update. -/
theorem timerExpiryResult : Obligations.TimerExpiryResult := by
  unfold Obligations.TimerExpiryResult
  intro s harmed S c c' p field frame raise
  have hexec : exec .timerExpiry s = .next (afterExpiry s) := execTimerExpiry_armed harmed
  have hphase : expiryPhase s = p := enter_eq s.phase.succ s.snap.plan
  rw [hexec, afterExpiry, drive_expiryEvents, append_expiryEvents, expiryTicks_eq, hphase]
  rfl

/-! ## Progress (R153) -/

/-- An operation leaves an armed timer armed: only an expiry takes it, and the handler re-arms. -/
theorem Effect.timerArmed {i : Instr} {s t : State} (h : Effect s i t)
    (ht : s.timerArmed = true) : t.timerArmed = true := by
  cases h with
  | expiry | start => rfl
  | _ => exact ht

/-- With an armed timer every operation goes on. -/
theorem exec_goes_on (i : Instr) {s : State} (ht : s.timerArmed = true) :
    ∃ t, exec i s = .next t := by
  by_contra hstop
  obtain ⟨-, hf, -⟩ := exec_stop (not_exists.1 hstop)
  exact nomatch ht.symm.trans hf

/-- What keeps a started block running: its parameters, START behind it, the timer armed, and no
reset to come. -/
structure RunsOn (s : State) : Prop where
  config : s.cfg.wf
  running : s.running = true
  armed : s.timerArmed = true
  noReset : s.noReset

theorem runsOn_of_blockInv {s : State} (h : BlockInv s) (hr : s.running = true)
    (hn : s.noReset) : RunsOn s :=
  ⟨h.config, hr, h.timer.armedIff.trans hr, hn⟩

/-- Taking the next event leaves no reset among those still to come. -/
theorem RunsOn.rest {s : State} (h : RunsOn s) {e : Event} {rest : List Event}
    (hin : s.inbox = e :: rest) : RunsOn { s with inbox := rest } :=
  ⟨h.config, h.running, h.armed,
    fun hm => h.noReset (hin ▸ List.mem_cons_of_mem e hm)⟩

theorem RunsOn.of_effect {s t : State} {i : Instr} (h : RunsOn s) (he : Effect s i t) :
    RunsOn t := by
  obtain ⟨hcfg, hinbox⟩ := he.keeps
  exact ⟨hcfg ▸ h.config, he.running h.running, he.timerArmed h.armed,
    fun hm => h.noReset (hinbox ▸ hm)⟩

theorem RunsOn.exec_next {s : State} (h : RunsOn s) (i : Instr) :
    ∃ t, exec i s = .next t ∧ RunsOn t := by
  obtain ⟨t, ht⟩ := exec_goes_on i h.armed
  exact ⟨t, ht, h.of_effect (effect_of_exec ht)⟩

/-- A command word does not stop a running block: an undecodable one only leaves its mark. -/
theorem RunsOn.runCommand_next {s : State} (h : RunsOn s) (w : Command) :
    ∃ t, runCommand w s = .next t ∧ RunsOn t := by
  unfold runCommand
  split
  · exact h.exec_next _
  · exact ⟨_, rfl, h.config, h.running, h.armed, h.noReset⟩

/-- One step of a running block goes on and leaves it running. -/
theorem RunsOn.step_next {s : State} (h : RunsOn s) : ∃ t, step s = .next t ∧ RunsOn t := by
  rw [step_wf h.config]
  match hin : s.inbox with
  | [] =>
    rw [runEvent_nil hin, runQuiet, if_pos h.armed]
    exact h.exec_next .timerExpiry
  | .command w :: rest =>
    rw [runEvent_command hin]
    exact (h.rest hin).runCommand_next w
  | .reset :: rest => exact absurd (hin ▸ List.mem_cons_self) h.noReset

/-- R153: every number of steps goes on and leaves a running block running. -/
theorem RunsOn.runFrom_next (k : Nat) {s : State} (h : RunsOn s) :
    ∃ t, runFrom k s = .next t ∧ RunsOn t := by
  induction k generalizing s with
  | zero => exact ⟨s, rfl, h⟩
  | succ k ih =>
    obtain ⟨u, hstep, hu⟩ := h.step_next
    obtain ⟨t, hrun, ht⟩ := ih hu
    exact ⟨t, by rw [runFrom_succ, hstep]; exact hrun, ht⟩

/-- Settles O12, by induction on the number of steps with `RunsOn`, which the invariant gives. -/
theorem runningBlockNeverStops : Obligations.RunningBlockNeverStops := by
  unfold Obligations.RunningBlockNeverStops
  intro k s hinv hrun hreset
  obtain ⟨t, ht, hrunsOn⟩ := (runsOn_of_blockInv hinv hrun hreset).runFrom_next k
  exact ⟨t, ht, hrunsOn.running, hrunsOn.armed⟩

end Sys2Proof.Machine
end

section
/-! Transition Buffer (spec/43_transition_buffer.md): the arrays position by position, the global
step as their maximum, and SET_DIGITS's no-op and its change. -/

namespace Sys2Proof

/-! ## Arrays of six, read at a position -/

theorem Six.ext_get {α : Type} {u v : Six α} (h : ∀ i, u.get i = v.get i) : u = v := by
  cases u
  cases v
  rw [Six.mk.injEq]
  exact ⟨h 0, h 1, h 2, h 3, h 4, h 5⟩

@[simp] theorem Six.get_map {α β : Type} (f : α → β) (v : Six α) (i : Fin nPos) :
    (v.map f).get i = f (v.get i) := by
  fin_cases i <;> rfl

@[simp] theorem Six.get_zipWith3 {α β γ δ : Type} (f : α → β → γ → δ) (u : Six α) (v : Six β)
    (w : Six γ) (i : Fin nPos) :
    (Six.zipWith3 f u v w).get i = f (u.get i) (v.get i) (w.get i) := by
  fin_cases i <;> rfl

namespace Machine

/-! ## The clamped steps (R161, R164, R165) -/

theorem get_map_clampAnim_toNat (c : Config) (a : Six AnimStep) (i : Fin nPos) :
    ((a.map (clampAnim c)).get i).toNat = min (a.get i).toNat c.animN := by
  rw [Six.get_map, clampAnim_toNat]

/-- R164: no position's step exceeds the global one. -/
theorem get_le_globalStep (a : Six AnimStep) (i : Fin nPos) :
    (a.get i).toNat ≤ (globalStep a).toNat := by
  rw [globalStep_toNat]
  fin_cases i <;> simp only [Six.get] <;> omega

/-- R164: some position has the global step. -/
theorem exists_get_eq_globalStep (a : Six AnimStep) :
    ∃ i, (a.get i).toNat = (globalStep a).toNat := by
  by_contra! h
  have h0 := h 0
  have h1 := h 1
  have h2 := h 2
  have h3 := h 3
  have h4 := h 4
  have h5 := h 5
  simp only [globalStep_toNat, Six.get] at h0 h1 h2 h3 h4 h5
  omega

/-- R165: a position keeps its new digit exactly when its clamped step is 0. -/
theorem oldDigit_eq (val : Digit) (x : AnimStep) (prev : Digit) :
    oldDigit val x prev = if x.toNat = 0 then val else prev :=
  if_congr BitVec.toNat_inj.symm rfl rfl

/-! ## SET_DIGITS (R168) -/

/-- R168: the no-op's condition, in the raw values. -/
theorem changed_eq_false_iff {v : Six Digit} {dp : Five Bool} {x : Six AnimStep} {s : State} :
    changed v dp x s = false ↔
      v = s.lastVal ∧ dp = s.lastDp ∧ ∀ i, (x.get i).toNat = (s.lastAnim.get i).toNat := by
  have steps : x = s.lastAnim ↔ ∀ i, (x.get i).toNat = (s.lastAnim.get i).toNat :=
    ⟨fun h i => by rw [h], fun h => Six.ext_get fun i => BitVec.eq_of_toNat_eq (h i)⟩
  rw [← steps, changed, decide_eq_false_iff_not, not_not, Prod.mk.injEq, Prod.mk.injEq]

theorem exec_setDigits_same {v : Six Digit} {dp : Five Bool} {a : Six AnimStep} {s : State}
    (h : changed v dp (a.map (clampAnim s.cfg)) s = false) :
    exec (.setDigits v dp a) s = .next s :=
  if_neg (Bool.eq_false_iff.1 h)

theorem exec_setDigits_changed {v : Six Digit} {dp : Five Bool} {a : Six AnimStep} {s : State}
    (h : changed v dp (a.map (clampAnim s.cfg)) s = true) :
    exec (.setDigits v dp a) s = .next (renderDigits v dp (a.map (clampAnim s.cfg)) s) :=
  if_pos h

/-- Settles O35: R168's guard is `changed` on the clamped steps; without it SET_DIGITS is the
no-op, with it the state is `renderDigits`, read register by register. -/
theorem setDigitsResult : Obligations.SetDigitsResult := by
  unfold Obligations.SetDigitsResult
  intro s v dp a
  let x := a.map (clampAnim s.cfg)
  have hx : ∀ i, (x.get i).toNat = min (a.get i).toNat s.cfg.animN :=
    get_map_clampAnim_toNat s.cfg a
  simp only [← hx, ← changed_eq_false_iff, Bool.not_eq_false]
  refine ⟨exec_setDigits_same, fun h => ⟨renderDigits v dp x s, exec_setDigits_changed h, rfl, rfl,
    fun _ => rfl, fun i => ?prev, get_le_globalStep x, exists_get_eq_globalStep x, rfl,
    fun hstep => ?old_eq_new, fun hstep => ?old, rfl, rfl, rfl, rfl⟩⟩
  case prev => exact Six.get_zipWith3 nextPrev v s.lastVal s.prevDigit i
  case old_eq_new => exact if_pos hstep
  case old =>
    refine ⟨.zipWith3 oldDigit v x (renderDigits v dp x s).prevDigit, fun i => ?_, if_neg hstep⟩
    rw [Six.get_zipWith3, oldDigit_eq]

end Machine

end Sys2Proof
end

section
/-! Serial Link (spec/44_serial_link.md): SHIFT_WORD, event by event. The trace of a list of bits is
read five places at a time: place `5 * k + j` holds the j-th event of the k-th bit. -/

namespace Sys2Proof.Machine

/-- R181: each bit sent takes five places of the trace. -/
theorem bitsEvents_getElem? (bs : List Bool) (k : Nat) {j : Nat} (hj : j < 5) :
    (bitsEvents bs)[5 * k + j]? = bs[k]?.bind fun b => (bitEvents b)[j]? := by
  induction bs generalizing k with
  | nil => rfl
  | cons b bs ih =>
    have hlen : (bitEvents b).length = 5 := rfl
    rw [bitsEvents_cons]
    cases k with
    | zero => rw [Nat.mul_zero, Nat.zero_add, List.getElem?_append_left (by omega)]; rfl
    | succ k =>
      rw [List.getElem?_append_right (by omega), hlen, List.getElem?_cons_succ, ← ih,
        show 5 * (k + 1) + j - 5 = 5 * k + j by omega]

theorem wordBitsOf_getElem? (o : BitOrder) (w : Word) {k : Nat} (hk : k < 32) :
    (wordBitsOf o w)[k]? = some (w.getLsbD (bitIndex o k)) := by
  simp [wordBitsOf, wordBits, hk]

theorem bitsEvents_wordBitsOf_length (o : BitOrder) (w : Word) :
    (bitsEvents (wordBitsOf o w)).length = 160 := by
  rw [bitsEvents_length, wordBitsOf_length, wordBits]

/-- R181, R182: the places of a word's trace that belong to the k-th bit sent. -/
theorem wordEvents_getElem?_bit (o : BitOrder) (w : Word) {k j : Nat} (hk : k < 32) (hj : j < 5) :
    (wordEvents o w)[5 * k + j]? = (bitEvents (w.getLsbD (bitIndex o k)))[j]? := by
  have hlen := bitsEvents_wordBitsOf_length o w
  rw [wordEvents_eq, List.getElem?_append_left (by omega), bitsEvents_getElem? _ _ hj,
    wordBitsOf_getElem? o w hk, Option.bind_some]

/-- R181: the last event drives the clock to its idle level. -/
theorem wordEvents_getElem?_last (o : BitOrder) (w : Word) :
    (wordEvents o w)[160]? = some (.clk true) := by
  rw [wordEvents_eq, ← bitsEvents_wordBitsOf_length o w, List.getElem?_concat_length]

/-- Settles O38: the k-th bit's five places hold `bitEvents` of the bit that `bitIndex` names, and
the idle level follows the 32 bits. -/
theorem shiftWordEvents : Obligations.ShiftWordEvents := by
  unfold Obligations.ShiftWordEvents
  intro o w
  refine ⟨wordEvents_length o w, fun k hk => ?_, wordEvents_getElem?_last o w⟩
  have bit {j : Nat} (hj : j < 5) := wordEvents_getElem?_bit o w hk hj
  exact ⟨bit (j := 0) (by decide), bit (j := 1) (by decide), bit (j := 2) (by decide),
    bit (j := 3) (by decide), bit (j := 4) (by decide)⟩

end Sys2Proof.Machine
end

section
/-! Command words (spec/30_encoding.md): the decoder inverts the encoder, and the encoder the
decoder. A field read from a word and placed again is the word under that field's mask. -/

namespace Sys2Proof

open Machine

/-! ## Decoding an encoded word -/

/-- R92: the literals of the table's rows are the masks and matches of their op codes. -/
theorem maskOf_eq_rowMask (i : Instr) : Laws.TableRow.maskOf i = rowMask i.opcode := by
  cases i <;> simp only [Instr.opcode, Laws.TableRow.maskOf] <;> decide

theorem matchOf_eq_rowMatch (i : Instr) : Laws.TableRow.matchOf i = rowMatch i.opcode := by
  cases i <;> simp only [Instr.opcode, Laws.TableRow.matchOf] <;> decide

theorem encode_meets_row (i : Instr) : Laws.TableRow.Statement i := by
  cases i with
  | setDigits v dp a => exact Laws.TableRow.setDigits v dp a
  | setBrightness pct => exact Laws.TableRow.setBrightness pct
  | setAutoBrightness lux => exact Laws.TableRow.setAutoBrightness lux
  | timerExpiry => exact Laws.TableRow.timerExpiry
  | start delay => exact Laws.TableRow.start delay
  | loadPin row col pin => exact Laws.TableRow.loadPin row col pin

/-- R92: the word of an operation matches the row of its op code. -/
theorem encode_and_rowMask (i : Instr) : encode i &&& rowMask i.opcode = rowMatch i.opcode := by
  rw [← maskOf_eq_rowMask, ← matchOf_eq_rowMatch]
  exact encode_meets_row i

theorem opOf_encode (i : Instr) : opOf (encode i) = i.opcode :=
  (and_rowMask_eq_iff.1 (encode_and_rowMask i)).1

theorem reservedBits_encode (i : Instr) : reservedBits (encode i) = 0#64 :=
  (and_rowMask_eq_iff.1 (encode_and_rowMask i)).2

theorem digitsOf_encode (v : Six Digit) (dp : Five Bool) (a : Six AnimStep) :
    digitsOf (encode (.setDigits v dp a)) = v := by
  simp (disch := decide) only [digitsOf, encode, BitVec.extractLsb'_or, extract_place_same,
    extract_place_other, BitVec.ofNat_eq_ofNat, BitVec.or_zero, BitVec.zero_or]

theorem dpOf_encode (v : Six Digit) (dp : Five Bool) (a : Six AnimStep) :
    dpOf (encode (.setDigits v dp a)) = dp := by
  simp (disch := decide) only [dpOf, encode, BitVec.getLsbD_or, getLsbD_place_ofBool,
    getLsbD_place_out, Bool.false_or, Bool.or_false, decide_true, Bool.true_and]

theorem animOf_encode (v : Six Digit) (dp : Five Bool) (a : Six AnimStep) :
    animOf (encode (.setDigits v dp a)) = a := by
  simp (disch := decide) only [animOf, encode, BitVec.extractLsb'_or, extract_place_same,
    extract_place_other, BitVec.ofNat_eq_ofNat, BitVec.or_zero, BitVec.zero_or]

/-- R82 to R87: every field of an encoded operation is read back at its place. -/
theorem readFields_encode (i : Instr) : readFields (encode i) = some i := by
  have hop := opOf_encode i
  cases i with
  | setDigits v dp a =>
    rw [readFields_setDigits hop, digitsOf_encode, dpOf_encode, animOf_encode]
  | setBrightness pct =>
    rw [readFields_setBrightness hop]
    simp (disch := decide) [encode, BitVec.extractLsb'_or, extract_place_same, extract_place_other]
  | setAutoBrightness lux =>
    rw [readFields_setAutoBrightness hop]
    simp (disch := decide) [encode, BitVec.extractLsb'_or, extract_place_same, extract_place_other]
  | timerExpiry => exact readFields_timerExpiry hop
  | start delay =>
    rw [readFields_start hop]
    simp (disch := decide) [encode, BitVec.extractLsb'_or, extract_place_same, extract_place_other]
  | loadPin row col pin =>
    rw [readFields_loadPin hop]
    simp (disch := decide) [encode, BitVec.extractLsb'_or, extract_place_same, extract_place_other]

/-- R90: the range checks answer the operation itself, when it is well formed. -/
theorem checkRange_eq_ok_iff {c : Config} {i j : Instr} :
    checkRange c i = .ok j ↔ i = j ∧ i.wellFormed c = true := by
  cases i with
  | start delay =>
    by_cases h : delayInRange c delay = true <;> simp [checkRange, Instr.wellFormed, h]
  | loadPin row col pin =>
    by_cases h : pinIndexValid row col = true <;> simp [checkRange, Instr.wellFormed, h]
  | _ => simp [checkRange, Instr.wellFormed]

/-- Settles O1: an encoded word matches its row and reads back every field, so only the range checks
are left. -/
theorem decodeOfEncode : Obligations.DecodeOfEncode := by
  unfold Obligations.DecodeOfEncode
  intro c i hi
  rw [decode_eq_checkRange c (readFields_encode i) (reservedBits_encode i)]
  exact checkRange_eq_ok_iff.2 ⟨rfl, hi⟩

/-! ## Encoding a decoded operation -/

/-- A field read from its place and placed there again is the word under the field's mask. -/
theorem place_extract (w : Command) (lo n : Nat) :
    place (w.extractLsb' lo n) lo = place (BitVec.allOnes n) lo &&& w := by
  apply BitVec.eq_of_getLsbD_eq
  intro j hj
  rw [BitVec.getLsbD_and, place_getLsbD _ _ hj, place_getLsbD _ _ hj, BitVec.getLsbD_extractLsb',
    BitVec.getLsbD_allOnes]
  by_cases h : lo ≤ j
  · rw [Nat.add_sub_cancel' h]
    simp only [h, decide_true, Bool.true_and]
  · simp [h]

/-- A one-bit field, likewise. -/
theorem place_bit (w : Command) (k : Nat) :
    place (BitVec.ofBool (w.getLsbD k)) k = place (BitVec.allOnes 1) k &&& w := by
  rw [← place_extract]
  congr 1
  apply BitVec.eq_of_getLsbD_eq
  intro j hj
  obtain rfl : j = 0 := by omega
  simp

/-- R90: a word without reserved bits is its op code and the bits of its format's fields. -/
theorem eq_rowMatch_or_fields {w : Command} (h : reservedBits w = 0#64) :
    w = rowMatch (opOf w) ||| fieldMask (opOf w) &&& w := by
  have hfields : fieldMask (opOf w) &&& w =
      fieldMask (opOf w) &&& w ||| reservedBits w := by rw [h, BitVec.or_zero]
  rw [hfields, reservedBits, ← and_opMask]
  apply BitVec.eq_of_getLsbD_eq
  intro j hj
  simp only [BitVec.getLsbD_and, BitVec.getLsbD_or, BitVec.getLsbD_not, hj, decide_true,
    Bool.true_and]
  cases w.getLsbD j <;> cases opMask.getLsbD j <;> cases (fieldMask (opOf w)).getLsbD j <;> rfl

/-- R82 to R87: encoding the fields read from a word gives its op code and its field bits back. -/
theorem encode_readFields {w : Command} {i : Instr} (h : readFields w = some i) :
    encode i = rowMatch i.opcode ||| fieldMask i.opcode &&& w := by
  unfold readFields at h
  split at h <;> cases h <;> rw [encode, Instr.opcode, rowMatch]
  case h_4 => exact congrArg (place 4 60 ||| ·) BitVec.zero_and.symm
  all_goals
    simp only [digitsOf, dpOf, animOf, place_extract, place_bit, ← or_and_mask]
    exact congrArg (place _ 60 ||| · &&& w) (by decide)

theorem opOf_eq_opcode {w : Command} {i : Instr} (h : readFields w = some i) :
    opOf w = i.opcode := by
  unfold readFields at h
  split at h <;> cases h <;> exact BitVec.eq_of_toNat_eq ‹_›
/-- Settles O2: a word without reserved bits is its op code and its field bits, which is what the
operation read from it encodes to. -/
theorem encodeOfDecode : Obligations.EncodeOfDecode := by
  unfold Obligations.EncodeOfDecode
  intro c w i h
  by_cases hop : readFields w = none
  · exact nomatch (decode_reservedOpcode c hop).symm.trans h
  by_cases hbits : reservedBits w = 0#64
  · obtain ⟨j, hj⟩ := Option.ne_none_iff_exists'.1 hop
    obtain ⟨rfl, hwf⟩ := checkRange_eq_ok_iff.1 ((decode_eq_checkRange c hj hbits).symm.trans h)
    refine ⟨?_, hwf⟩
    rw [encode_readFields hj, ← opOf_eq_opcode hj, ← eq_rowMatch_or_fields hbits]
  · exact nomatch (decode_reservedBitsNonzero c hop hbits).symm.trans h

/-! ## The example words of section 5 -/

/-- Settles O5: each word is the encoding of its operation, which every well-formed configuration
accepts. -/
theorem exampleWordsDecode : Obligations.ExampleWordsDecode := by
  unfold Obligations.ExampleWordsDecode
  intro c hc
  obtain ⟨-, -, hmax, -⟩ := wf_iff.1 hc
  have hdelay : delayInRange c 500 = true := delayInRange_iff.2 hmax
  have word {w : Command} (i : Instr) (hw : encode i = w) (hi : i.wellFormed c = true) :
      decode c w = .ok i := hw ▸ decodeOfEncode c i hi
  exact ⟨word _ (by decide) rfl, word _ (by decide) rfl, word _ (by decide) rfl,
    word _ (by decide) rfl, word _ (by decide) rfl, word _ (by decide) hdelay,
    word _ (by decide) rfl, word _ (by decide) rfl⟩

end Sys2Proof
end

section
/-! Operations (spec/10_state.md section 7): what each leaves unchanged, register by register, and
what follows from it for the snapshot and the brightness form. -/

namespace Sys2Proof.Machine

variable {i : Instr} {s t : State}

/-! ## The writers of each register -/

/-- R32 to R36: only SET_DIGITS writes the registers of the last-rendered arrays. -/
theorem Effect.digits_eq (h : Effect s i t) (hi : ¬ ∃ v dp a, i = .setDigits v dp a) :
    t.lastVal = s.lastVal ∧ t.lastDp = s.lastDp ∧ t.lastAnim = s.lastAnim ∧
      t.prevDigit = s.prevDigit ∧ t.animStep = s.animStep := by
  cases h with
  | digits v dp a => exact absurd ⟨v, dp, a, rfl⟩ hi
  | _ => exact ⟨rfl, rfl, rfl, rfl, rfl⟩

/-- R37, R38: only the brightness operations write the brightness. -/
theorem Effect.brightness_eq (h : Effect s i t)
    (hi : ¬ ((∃ pct, i = .setBrightness pct) ∨ ∃ lux, i = .setAutoBrightness lux)) :
    t.bMode = s.bMode ∧ t.bright = s.bright := by
  cases h with
  | fixed pct => exact absurd (.inl ⟨pct, rfl⟩) hi
  | auto lux => exact absurd (.inr ⟨lux, rfl⟩) hi
  | _ => exact ⟨rfl, rfl⟩

/-- R39, R66: every other operation publishes nothing. -/
theorem Effect.snap_eq (h : Effect s i t) (hd : ¬ ∃ v dp a, i = .setDigits v dp a)
    (hb : ¬ ((∃ pct, i = .setBrightness pct) ∨ ∃ lux, i = .setAutoBrightness lux)) :
    t.snap = s.snap ∧ t.pubCount = s.pubCount := by
  cases h with
  | digits v dp a => exact absurd ⟨v, dp, a, rfl⟩ hd
  | fixed pct => exact absurd (.inl ⟨pct, rfl⟩) hb
  | auto lux => exact absurd (.inr ⟨lux, rfl⟩) hb
  | _ => exact ⟨rfl, rfl⟩

/-- R42, R45, R50: only an expiry enters a phase and moves the lines. -/
theorem Effect.wires_eq (h : Effect s i t) (hi : i ≠ .timerExpiry) :
    t.phase = s.phase ∧ t.lines = s.lines ∧ t.wireTrace = s.wireTrace := by
  cases h with
  | expiry => exact absurd rfl hi
  | _ => exact ⟨rfl, rfl, rfl⟩

/-- R43: only START writes `running`. -/
theorem Effect.running_eq (h : Effect s i t) (hi : ∀ d, i ≠ .start d) : t.running = s.running := by
  cases h with
  | start d => exact absurd rfl (hi d)
  | _ => rfl

/-- R44: only START and an expiry arm the timer. -/
theorem Effect.timer_eq (h : Effect s i t) (hs : ∀ d, i ≠ .start d) (he : i ≠ .timerExpiry) :
    t.timerArmed = s.timerArmed ∧ t.timerLoad = s.timerLoad ∧ t.timerTrace = s.timerTrace := by
  cases h with
  | start d => exact absurd rfl (hs d)
  | expiry => exact absurd rfl he
  | _ => exact ⟨rfl, rfl, rfl⟩

/-- R61: only LOAD_PIN writes the pin memory. -/
theorem Effect.pinMem_eq (h : Effect s i t) (hi : ∀ r c p, i ≠ .loadPin r c p) :
    t.pinMem = s.pinMem := by
  cases h with
  | load row col pin => exact absurd rfl (hi row col pin)
  | _ => rfl

/-- R202: only START and LOAD_PIN can leave the mark. -/
theorem Effect.refused_eq (h : Effect s i t) (hs : ∀ d, i ≠ .start d)
    (hl : ∀ r c p, i ≠ .loadPin r c p) : t.refused = s.refused := by
  cases h with
  | startLong d => exact absurd rfl (hs d)
  | startTwice d => exact absurd rfl (hs d)
  | loadBad row col pin => exact absurd rfl (hl row col pin)
  | loadLate row col pin => exact absurd rfl (hl row col pin)
  | _ => rfl

/-- Settles O43, register by register. -/
theorem accessTable : Obligations.AccessTable := by
  unfold Obligations.AccessTable
  intro i s t h digits brightness
  have he := effect_of_exec h
  exact ⟨he.digits_eq, he.brightness_eq, he.snap_eq, he.wires_eq, he.running_eq, he.timer_eq,
    he.pinMem_eq, he.refused_eq, he.keeps⟩

/-! ## Publishing (R66, R165, R166) -/

/-- R165, R166: without a crossfade no position animates, so one rule gives the old frame. -/
theorem oldFrame_eq (m : List Host.Cell) (v : Six Digit) (dp : Five Bool) (x : Six AnimStep)
    (prev : Six Digit) :
    oldFrame m v dp x prev = encodeFrame m (.zipWith3 oldDigit v x prev) dp := by
  by_cases h : globalStep x = 0
  · have hsame : Six.zipWith3 oldDigit v x prev = v := by
      refine Six.ext_get fun i => ?_
      have hle := get_le_globalStep x i
      rw [h] at hle
      rw [Six.get_zipWith3, oldDigit_eq, if_pos (Nat.le_zero.1 hle)]
    rw [oldFrame, if_pos h, hsame]
  · exact if_neg h

/-- Settles O44: SET_DIGITS on a change and the two brightness operations publish, and nothing else
does. -/
theorem publishIsWhole : Obligations.PublishIsWhole := by
  unfold Obligations.PublishIsWhole
  intro i s t h
  cases effect_of_exec h with
  | digits v dp a =>
    refine .inr ⟨rfl, rfl, rfl, .inl ⟨⟨v, dp, a, rfl⟩, rfl, _, fun p => ?_, oldFrame_eq ..⟩⟩
    exact Six.get_zipWith3 oldDigit v (a.map (clampAnim s.cfg)) _ p
  | fixed pct => exact .inr ⟨rfl, rfl, rfl, .inr ⟨.inl ⟨pct, rfl⟩, rfl, rfl⟩⟩
  | auto lux => exact .inr ⟨rfl, rfl, rfl, .inr ⟨.inr ⟨lux, rfl⟩, rfl, rfl⟩⟩
  | _ => exact .inl ⟨rfl, rfl⟩

/-! ## Reading an effect backwards -/

theorem exec_start (d : BitVec 32) (s : State) :
    exec (.start d) s =
      if floorTicks d.toNat ≤ s.cfg.timerMax then
        if s.running then .next (refuse .alreadyStarted s)
        else .next (arm (floorTicks d.toNat) { s with running := true })
      else .next (refuse .delayOutOfRange s) := by
  simp only [exec, execStart, delayInRange, decide_eq_true_eq]

theorem exec_loadPin (row : BitVec 3) (col : BitVec 4) (pin : Pin) (s : State) :
    exec (.loadPin row col pin) s =
      if pinIndexValid row col then
        if s.running then .next (refuse .tableImmutable s)
        else .next (pinWrite row.toNat col.toNat pin s)
      else .next (refuse .pinIndexOutOfRange s) := rfl

/-- Each effect is what its operation does: `effect_of_exec`, the other way. -/
theorem Effect.exec_eq (h : Effect s i t) : exec i s = .next t := by
  cases h with
  | same v dp a hc => exact exec_setDigits_same hc
  | digits v dp a hc => exact exec_setDigits_changed hc
  | fixed pct => rfl
  | auto lux => rfl
  | expiry ht => exact execTimerExpiry_armed ht
  | start d hd hr => rw [exec_start, if_pos hd, if_neg (Bool.eq_false_iff.1 hr)]
  | startLong d hd => rw [exec_start, if_neg hd]
  | startTwice d hd hr => rw [exec_start, if_pos hd, if_pos hr]
  | load row col pin hv hr => rw [exec_loadPin, if_pos hv, if_neg (Bool.eq_false_iff.1 hr)]
  | loadBad row col pin hv => rw [exec_loadPin, if_neg (Bool.eq_false_iff.1 hv)]
  | loadLate row col pin hv hr => rw [exec_loadPin, if_pos hv, if_pos hr]

/-- R132: an effect from a state with another brightness form is the same but for that form. -/
theorem Effect.of_bMode (h : Effect s i t) (m : BMode) :
    ∃ t', Effect { s with bMode := m } i t' ∧ { t' with bMode := t.bMode } = t := by
  cases h with
  | same v dp a hc => exact ⟨_, .same v dp a hc, rfl⟩
  | digits v dp a hc => exact ⟨_, .digits v dp a hc, rfl⟩
  | fixed pct => exact ⟨_, .fixed pct, rfl⟩
  | auto lux => exact ⟨_, .auto lux, rfl⟩
  | expiry ht => exact ⟨_, .expiry ht, rfl⟩
  | start d hd hr => exact ⟨_, .start d hd hr, rfl⟩
  | startLong d hd => exact ⟨_, .startLong d hd, rfl⟩
  | startTwice d hd hr => exact ⟨_, .startTwice d hd hr, rfl⟩
  | load row col pin hv hr => exact ⟨_, .load row col pin hv hr, rfl⟩
  | loadBad row col pin hv => exact ⟨_, .loadBad row col pin hv, rfl⟩
  | loadLate row col pin hv hr => exact ⟨_, .loadLate row col pin hv hr, rfl⟩

/-- Settles O45, by the effect from the state with the other form. -/
theorem brightnessFormNeverRead : Obligations.BrightnessFormNeverRead := by
  unfold Obligations.BrightnessFormNeverRead
  intro i s t m h
  obtain ⟨t', he, heq⟩ := (effect_of_exec h).of_bMode m
  exact ⟨t', he.exec_eq, heq⟩

/-! ## START, and an expiry without or with an armed timer -/

/-- Settles O25: R141's two tests, in their order. -/
theorem startResult : Obligations.StartResult := by
  unfold Obligations.StartResult
  exact fun s d => ⟨fun hd hr => (Effect.start d hd hr).exec_eq,
    fun hd hr => (Effect.startTwice d hd hr).exec_eq,
    fun hd => (Effect.startLong d (Nat.not_le_of_lt hd)).exec_eq⟩

/-- Settles O27: R142's guard. -/
theorem timerExpiryNeedsArmedTimer : Obligations.TimerExpiryNeedsArmedTimer := by
  unfold Obligations.TimerExpiryNeedsArmedTimer
  exact fun s h => if_neg (Bool.eq_false_iff.1 h)

/-- R67: the events of an expiry come from the parameters, the snapshot and the phase. -/
theorem expiryEvents_congr {s s' : State} (hcfg : s'.cfg = s.cfg) (hsnap : s'.snap = s.snap)
    (hphase : s'.phase = s.phase) : expiryEvents s' = expiryEvents s := by
  simp only [expiryEvents, expiryPhase, hcfg, hsnap, hphase]

/-- Settles O46: everything an expiry writes is a function of the snapshot, the phase and the
parameters. -/
theorem expiryReadsOnlySnapshotAndPhase : Obligations.ExpiryReadsOnlySnapshotAndPhase := by
  unfold Obligations.ExpiryReadsOnlySnapshotAndPhase
  intro s s' t hcfg hsnap hphase harmed h
  obtain ⟨-, rfl⟩ := exec_timerExpiry_next h
  have hentered : expiryPhase s' = expiryPhase s := by simp only [expiryPhase, hsnap, hphase]
  refine ⟨_, expiryEvents s, execTimerExpiry_armed harmed, hentered, ?ticks, ?oe, rfl, ?events⟩
  case ticks => simp only [afterExpiry_timerLoad, expiryTicks, hentered, hsnap]
  case oe => rw [afterExpiry_oe, afterExpiry_oe, hentered, hsnap]
  case events => rw [afterExpiry_wireTrace, expiryEvents_congr hcfg hsnap hphase]

/-! ## LOAD_PIN (R107) -/

/-- R61: the columns of an existing entry stay below NDIG. -/
theorem col_lt_nDig {r c : Nat} (h : r ≤ 5 ∧ c ≤ 9 ∨ r = 6 ∧ c ≤ 4) : c < nDig := by
  simp only [nDig]
  omega

/-- R62: a write to one entry leaves every other entry of the table as it reads. -/
theorem pinRead_pinWrite_other {r c r' c' : Nat} (pin : Pin) (s : State) (hc : c < nDig)
    (hc' : c' < nDig) (hne : ¬ (r' = r ∧ c' = c)) :
    pinRead (pinWrite r c pin s).pinMem r' c' = pinRead s.pinMem r' c' :=
  Memory.read_write_other s.pinMem pin fun hkey => hne (pinAddr_inj hc' hc hkey)

/-- Settles O17: R107's two tests, and the one write on the canonical table. -/
theorem loadPinWritesOneEntry : Obligations.LoadPinWritesOneEntry := by
  unfold Obligations.LoadPinWritesOneEntry
  intro s row col pin valid
  refine ⟨fun hwf hvalid hr => ?write, fun hvalid hr => ?late, fun hinvalid => ?bad⟩
  case write =>
    have hindex : pinIndexValid row col = true := pinIndexValid_iff.2 hvalid
    refine ⟨_, (Effect.load row col pin hindex hr).exec_eq, Memory.read_write_same hwf,
      fun r c hrc hne => ?_, Memory.wf_write hwf (pinAddr_lt hindex).1, rfl⟩
    exact pinRead_pinWrite_other pin s (col_lt_nDig hvalid) (col_lt_nDig hrc) hne
  case late => exact (Effect.loadLate row col pin (pinIndexValid_iff.2 hvalid) hr).exec_eq
  case bad =>
    have hindex := mt pinIndexValid_iff.1 hinvalid
    exact (Effect.loadBad row col pin (Bool.eq_false_iff.2 hindex)).exec_eq

end Sys2Proof.Machine
end

section
/-! Steps (spec/60_exceptions.md, 70_reset_and_hazards.md section 1): what the next event does, and
when there is no step. -/

namespace Sys2Proof.Machine

/-! ## One event -/

theorem runCommand_ok {s : State} {w : Command} {i : Instr} (h : decode s.cfg w = .ok i) :
    runCommand w s = exec i s := by
  rw [runCommand, h]

theorem runCommand_error {s : State} {w : Command} {r : RefuseReason}
    (h : decode s.cfg w = .error r) : runCommand w s = .next (refuse r s) := by
  rw [runCommand, h]

/-- Settles O6: a command word at the front of the events is run with those behind it to come. -/
theorem stepRunsDecodedCommand : Obligations.StepRunsDecodedCommand := by
  unfold Obligations.StepRunsDecodedCommand
  intro s w rest i hc hin hd
  rw [step_wf hc, runEvent_command hin]
  exact runCommand_ok hd

/-- Settles O7: R202's refusal of an undecodable word. -/
theorem stepMarksUndecodableWord : Obligations.StepMarksUndecodableWord := by
  unfold Obligations.StepMarksUndecodableWord
  intro s w rest r hc hin hd
  rw [step_wf hc, runEvent_command hin]
  exact runCommand_error hd

/-- R41: the reset snapshot's plan, PLAN(0, 0): the on-time is PWM_MIN. -/
theorem plan_reset (c : Config) :
    plan c 0 0 = ⟨c.pwmMin / 2, c.pwmMin / 2, c.refreshPeriod - 2 * (c.pwmMin / 2)⟩ := by
  have hpwm : pwmOf c 0 = c.pwmMin := by simp [pwmOf]
  rw [plan_step_zero, hpwm, Nat.sub_sub, ← Nat.two_mul]

/-- Settles O8, register by register of the reset state. -/
theorem resetEventRestoresEveryRegister : Obligations.ResetEventRestoresEveryRegister := by
  unfold Obligations.ResetEventRestoresEveryRegister
  intro s rest hc hin
  rw [step_wf hc, runEvent_reset hin, resetEvent, State.resetWith, plan_reset]
  rfl

/-- Settles O9: R142's guard on the timer agent's step. -/
theorem stepWithNothingToCome : Obligations.StepWithNothingToCome := by
  unfold Obligations.StepWithNothingToCome
  intro s hc hin
  rw [step_wf hc, runEvent_nil hin]
  exact ⟨fun ht => if_pos ht, fun ht => if_neg (Bool.eq_false_iff.1 ht)⟩

/-! ## Stops -/

/-- R142: the only refusal of an operation is an expiry's, without an armed timer. -/
theorem exec_refused {i : Instr} {s : State} {r : Refusal} (h : exec i s = .refused r) :
    i = .timerExpiry ∧ s.timerArmed = false ∧ r = .timerNotArmed := by
  obtain ⟨hi, ht, hstop⟩ := exec_stop fun t hnext => nomatch h.symm.trans hnext
  exact ⟨hi, ht, by injection h.symm.trans hstop⟩

/-- R85: one word decodes to TIMER_EXPIRY, its encoding. -/
theorem eq_of_decode_timerExpiry {c : Config} {w : Command} (h : decode c w = .ok .timerExpiry) :
    w = 0x4000000000000000 :=
  (encodeOfDecode c w _ h).1.symm.trans (by decide)

/-- Settles O10: a well-formed block is refused a step only by `exec`, and only on the word of
TIMER_EXPIRY; with nothing to come the timer agent steps only when it is armed. -/
theorem stepStopsOnlyWithoutTimer : Obligations.StepStopsOnlyWithoutTimer := by
  unfold Obligations.StepStopsOnlyWithoutTimer
  intro s r h
  by_cases hc : s.cfg.wf = true
  · rw [step_wf hc] at h
    match hin : s.inbox with
    | [] =>
      rw [runEvent_nil hin, runQuiet] at h
      split at h
      next ht =>
        obtain ⟨-, hf, -⟩ := exec_refused h
        exact nomatch ht.symm.trans hf
      next => exact nomatch h
    | .command w :: rest =>
      rw [runEvent_command hin, runCommand] at h
      split at h
      next i hd =>
        obtain ⟨rfl, ht, hr⟩ := exec_refused h
        exact .inr ⟨hr, ht, rest, by rw [eq_of_decode_timerExpiry hd]⟩
      next => exact nomatch h
    | .reset :: rest =>
      rw [runEvent_reset hin] at h
      exact nomatch h
  · rw [step_not_wf hc] at h
    exact .inl ⟨by injection h.symm, hc⟩

/-- R11, R12: well-formedness with the two bounds on TIMER_MAX read as one. -/
theorem wf_iff_max {c : Config} :
    c.wf = true ↔ c.pwmMin ≤ c.refreshPeriod ∧ max c.refreshPeriod 500 ≤ c.timerMax ∧
      1 ≤ c.maxBrightness ∧ 1 ≤ c.animN ∧ c.animN ≤ 31 := by
  rw [wf_iff, Nat.max_le]
  tauto

/-- Settles O11, by R12's test in `build` and in `step`. -/
theorem buildRefusesIllFormedConfig : Obligations.BuildRefusesIllFormedConfig := by
  unfold Obligations.BuildRefusesIllFormedConfig
  intro c
  rw [← wf_iff_max]
  exact ⟨fun h => ⟨if_neg h, fun s hs => step_not_wf (hs ▸ h)⟩, fun h => if_pos h⟩

end Sys2Proof.Machine
end

section
/-! The invariant (spec/10_state.md section 3): it holds after a reset, and every operation keeps each
of its parts, so every step and every run keeps it. -/

namespace Sys2Proof.Machine

variable {i : Instr} {s t : State}

/-! ## Pin memory and steps -/

/-- R61: the table stays in its canonical form. -/
theorem Effect.memory_wf (he : Effect s i t) (h : Memory.wf s.pinMem) : Memory.wf t.pinMem := by
  cases he with
  | load row col pin hv => exact Memory.wf_write h (pinAddr_lt hv).1
  | _ => exact h

/-- R34, R164: the stored steps stay clamped, and the global step their maximum. -/
theorem Effect.animInv (he : Effect s i t) (h : AnimInv s) : AnimInv t := by
  cases he with
  | digits v dp a =>
    exact ⟨fun p => (get_map_clampAnim_toNat s.cfg a p).trans_le (Nat.min_le_right _ _), rfl⟩
  | _ => exact { h with }

/-! ## Snapshot (R40) -/

/-- R40: the plan of a clamped brightness sums to REFRESH_PERIOD. -/
theorem snapInv_of_planned (hc : s.cfg.wf)
    (planned : s.snap.plan = plan s.cfg s.bright s.animStep.toNat) (sameB : s.snap.b = s.bright)
    (brightMax : s.bright ≤ s.cfg.maxBrightness)
    (steady : s.animStep = 0 → s.snap.old = s.snap.new) : SnapInv s where
  planned := planned
  sum := by rw [planned]; exact plan_sum_of_le (pwmOf_le hc brightMax) _
  sameB := sameB
  brightMax := brightMax
  steady := steady

theorem snapInv_applyBrightness (mode : BMode) (x : Nat) (hc : s.cfg.wf) (h : SnapInv s) :
    SnapInv (applyBrightness mode (bclamp s.cfg x) s) :=
  snapInv_of_planned hc rfl rfl (bclamp_le x) h.steady

theorem Effect.snapInv (he : Effect s i t) (hc : s.cfg.wf) (h : SnapInv s) : SnapInv t := by
  cases he with
  | digits v dp a => exact snapInv_of_planned hc rfl rfl h.brightMax fun hstep => if_pos hstep
  | fixed pct => exact snapInv_applyBrightness .fixed _ hc h
  | auto lux => exact snapInv_applyBrightness .auto _ hc h
  | _ => exact { h with }

/-! ## Timer (R44, R150, R153) -/

/-- Arming a running block with a duration in range meets the timer's invariant. -/
theorem timerInv_arm {d : Nat} (hr : s.running = true)
    (range : ∀ x ∈ s.timerTrace, tFloor ≤ x ∧ x ≤ s.cfg.timerMax)
    (hd : tFloor ≤ d ∧ d ≤ s.cfg.timerMax) : TimerInv (arm d s) where
  armedIff := hr.symm
  load := by simp
  range := by
    intro x hx
    obtain hx | hx := List.mem_append.1 hx
    · exact range x hx
    · exact List.mem_singleton.1 hx ▸ hd
  started := by simp [hr]

/-- R234: a plan's durations stay within the refresh period. -/
theorem SnapInv.phaseTicks_le (h : SnapInv s) (ph : Phase) :
    phaseTicks ph s.snap.plan ≤ s.cfg.refreshPeriod := by
  have hsum := h.sum
  cases ph <;> simp only [phaseTicks] <;> omega

theorem expiryTicks_range (hc : s.cfg.wf) (h : SnapInv s) :
    tFloor ≤ expiryTicks s ∧ expiryTicks s ≤ s.cfg.timerMax := by
  obtain ⟨-, hperiod, hfloor, -⟩ := wf_iff.1 hc
  exact ⟨le_floorTicks _, floorTicks_le ((h.phaseTicks_le _).trans hperiod) hfloor⟩

theorem Effect.timerInv (he : Effect s i t) (hc : s.cfg.wf) (hsnap : SnapInv s) (h : TimerInv s) :
    TimerInv t := by
  cases he with
  | expiry ht =>
    exact { timerInv_arm (h.armedIff.symm.trans ht) h.range (expiryTicks_range hc hsnap) with }
  | start d hd => exact timerInv_arm rfl h.range ⟨le_floorTicks _, hd⟩
  | _ => exact { h with }

/-! ## Wires (R147, R185) -/

/-- R149, R185: an expiry leaves the clock idle high. -/
theorem afterExpiry_clk (h : s.lines.clk = true) : (afterExpiry s).lines.clk = true := by
  rw [afterExpiry_lines, drive_expiryEvents]
  split
  · rfl
  · exact h

theorem wireInv_afterExpiry (hr : s.running = true) (h : WireInv s) : WireInv (afterExpiry s) where
  replay := by
    rw [afterExpiry_lines, afterExpiry_wireTrace, List.foldl_append, ← h.replay]
  idle := afterExpiry_clk h.idle
  blankDark := by
    rw [afterExpiry_oe, outputEnabled, decide_eq_true_iff]
    exact And.left
  still := fun hstopped => nomatch hr.symm.trans hstopped

theorem Effect.wireInv (he : Effect s i t) (htimer : TimerInv s) (h : WireInv s) : WireInv t := by
  cases he with
  | expiry ht => exact wireInv_afterExpiry (htimer.armedIff.symm.trans ht) h
  | start => exact { h with still := nofun }
  | _ => exact { h with }

/-! ## The whole invariant -/

theorem Effect.blockInv (he : Effect s i t) (h : BlockInv s) : BlockInv t where
  config := he.keeps.1 ▸ h.config
  memory := he.memory_wf h.memory
  snap := he.snapInv h.config h.snap
  anim := he.animInv h.anim
  timer := he.timerInv h.config h.snap h.timer
  wire := he.wireInv h.timer h.wire

/-- The invariant does not look at the events still to come. -/
theorem BlockInv.setInbox (h : BlockInv s) (events : List Event) :
    BlockInv { s with inbox := events } where
  config := h.config
  memory := h.memory
  snap := { h.snap with }
  anim := { h.anim with }
  timer := { h.timer with }
  wire := { h.wire with }

/-- Nor at the sticky mark. -/
theorem BlockInv.refuse (h : BlockInv s) (r : RefuseReason) : BlockInv (refuse r s) where
  config := h.config
  memory := h.memory
  snap := { h.snap with }
  anim := { h.anim with }
  timer := { h.timer with }
  wire := { h.wire with }

/-- R220: the reset state meets the invariant. -/
theorem blockInv_resetWith {c : Config} (hc : c.wf) : BlockInv (State.resetWith c) where
  config := hc
  memory := Memory.wf_nil
  snap := snapInv_of_planned hc rfl rfl (Nat.zero_le _) fun _ => rfl
  anim := ⟨fun p => by fin_cases p <;> exact Nat.zero_le _, rfl⟩
  timer := ⟨rfl, rfl, nofun, by simp⟩
  wire := ⟨rfl, rfl, nofun, fun _ => ⟨rfl, rfl⟩⟩

/-- Settles O47, for every well-formed configuration, parameter set PA among them. -/
theorem resetMeetsInvariant : Obligations.ResetMeetsInvariant := by
  unfold Obligations.ResetMeetsInvariant
  exact ⟨fun _ => blockInv_resetWith, blockInv_resetWith (by decide)⟩

theorem StepEffect.blockInv (hstep : StepEffect s t) (h : BlockInv s) : BlockInv t := by
  cases hstep with
  | idle => exact h
  | quiet _ _ _ he => exact he.blockInv h
  | command _ _ rest _ _ _ he => exact he.blockInv (h.setInbox rest)
  | undecodable _ r rest => exact (h.setInbox rest).refuse r
  | reset rest => exact (blockInv_resetWith h.config).setInbox rest

/-- Settles O48: each effect keeps each part of the invariant, and a reset restores it. -/
theorem stepKeepsInvariant : Obligations.StepKeepsInvariant := by
  unfold Obligations.StepKeepsInvariant
  intro s t h hnext
  obtain ⟨-, hstep⟩ := effect_of_step hnext
  exact hstep.blockInv h

/-- Settles O49, by induction on the number of steps. -/
theorem everyRunMeetsInvariant : Obligations.EveryRunMeetsInvariant := by
  unfold Obligations.EveryRunMeetsInvariant
  exact fun c events k t hc hrun =>
    runFrom_induction stepKeepsInvariant ((blockInv_resetWith hc).setInbox events) hrun

/-! ## The discipline of the wires (R185, R227) -/

/-- R143, R185: an expiry drives OE low before it shifts and high only after, so its events are safe
whatever the levels before. -/
theorem traceSafe_expiryEvents (s : State) (l : Lines) : traceSafe l (expiryEvents s) = true := by
  have hraise (l' : Lines) : traceSafe l' (raiseEvents (expiryPhase s) s.snap) = true := by
    rw [raiseEvents_eq]
    split <;> rfl
  obtain ⟨-, hf⟩ | ⟨-, f, hf⟩ := phaseFrame_cases (expiryPhase s) s.snap
  · rw [expiryEvents, hf]
    exact hraise _
  · have hshift := traceSafe_frameEvents s.cfg.bitOrder f (l.drive (.oe false)) rfl
    rw [expiryEvents, hf, traceSafe, shiftEvents, traceSafe_append, hshift, hraise]
    rfl

theorem Effect.traceSafe (he : Effect s i t) (h : traceSafe .reset s.wireTrace = true) :
    traceSafe .reset t.wireTrace = true := by
  by_cases hi : i = .timerExpiry
  · subst hi
    cases he with
    | expiry ht => rw [afterExpiry_wireTrace, traceSafe_append, h, traceSafe_expiryEvents]; rfl
  · obtain ⟨-, -, hwires⟩ := he.wires_eq hi
    rw [hwires, h]

/-- Settles O42: an operation that is no expiry leaves the trace alone, an expiry appends safe
events, and a reset empties it. -/
theorem wiresNeverShiftThrough : Obligations.WiresNeverShiftThrough := by
  unfold Obligations.WiresNeverShiftThrough
  intro s t _ hsafe h
  obtain ⟨-, hstep⟩ := effect_of_step h
  cases hstep with
  | idle => exact hsafe
  | quiet _ _ _ he => exact he.traceSafe hsafe
  | command _ _ _ _ _ _ he => exact he.traceSafe hsafe
  | undecodable => exact hsafe
  | reset => rfl

end Sys2Proof.Machine
end

section
/-! Runs without a reset (spec/60_exceptions.md section 1, 20_memory.md section 5,
70_reset_and_hazards.md section 1): what stays until a reset or until START, and the outputs of a
dark run. -/

namespace Sys2Proof.Machine

variable {i : Instr} {s t : State}

/-! ## No reset to come -/

theorem noReset_rest {e : Event} {rest : List Event} (h : s.noReset) (hin : s.inbox = e :: rest) :
    Event.reset ∉ rest :=
  fun hm => h (hin ▸ List.mem_cons_of_mem e hm)

theorem Effect.noReset (he : Effect s i t) (h : s.noReset) : t.noReset := by
  obtain ⟨-, hinbox⟩ := he.keeps
  rwa [State.noReset, hinbox]

theorem StepEffect.noReset (hstep : StepEffect s t) (h : s.noReset) : t.noReset := by
  cases hstep with
  | idle => exact h
  | quiet _ _ _ he => exact he.noReset h
  | command _ _ _ _ hin _ he => exact he.noReset (noReset_rest h hin)
  | undecodable _ _ _ hin => exact noReset_rest h hin
  | reset _ hin => exact absurd (hin ▸ List.mem_cons_self) h

/-- Whatever every operation keeps, and what neither the list of events nor the mark decides, every
run without a reset keeps. -/
theorem runFrom_noReset_induction {P : State → Prop}
    (heffect : ∀ i s t, Effect s i t → P s → P t)
    (hinbox : ∀ s events, P s → P { s with inbox := events })
    (hrefuse : ∀ s r, P s → P (refuse r s))
    {k : Nat} (hn : s.noReset) (hs : P s) (h : runFrom k s = .next t) : P t := by
  have keep : ∀ s t, s.noReset ∧ P s → step s = .next t → t.noReset ∧ P t := by
    rintro s t ⟨hn, hs⟩ hnext
    obtain ⟨-, hstep⟩ := effect_of_step hnext
    refine ⟨hstep.noReset hn, ?_⟩
    cases hstep with
    | idle => exact hs
    | quiet _ _ _ he => exact heffect _ _ _ he hs
    | command _ _ rest _ _ _ he => exact heffect _ _ _ he (hinbox s rest hs)
    | undecodable _ r rest => exact hrefuse _ r (hinbox s rest hs)
    | reset _ hin => exact absurd (hin ▸ List.mem_cons_self) hn
  exact (runFrom_induction keep ⟨hn, hs⟩ h).2

/-- R202: no operation clears the mark. -/
theorem Effect.not_clean (he : Effect s i t) (h : ¬ s.clean) : ¬ t.clean := by
  cases he with
  | startLong | startTwice | loadBad | loadLate => exact nofun
  | _ => exact h

/-- Settles O13: no operation clears the mark, and a refusal sets it. -/
theorem refusedMarkIsSticky : Obligations.RefusedMarkIsSticky := by
  unfold Obligations.RefusedMarkIsSticky
  intro k s t hs hn h
  exact runFrom_noReset_induction (P := fun u => ¬ u.clean) (fun _ _ _ he => he.not_clean)
    (fun _ _ hu => hu) (fun _ _ _ => nofun) hn hs h

/-- R107: on a started block LOAD_PIN is refused, so no operation writes the table. -/
theorem Effect.pinMem_eq_of_running (he : Effect s i t) (hr : s.running = true) :
    t.pinMem = s.pinMem := by
  cases he with
  | load _ _ _ _ hstopped => exact nomatch hr.symm.trans hstopped
  | _ => rfl

/-- Settles O18: a started block stays started, and its operations leave the table alone. -/
theorem tableFixedOnceRunning : Obligations.TableFixedOnceRunning := by
  unfold Obligations.TableFixedOnceRunning
  intro k s t hr hn h
  obtain ⟨-, htable⟩ := runFrom_noReset_induction
    (P := fun u => u.running = true ∧ u.pinMem = s.pinMem)
    (fun _ _ _ he ⟨hu, hmem⟩ => ⟨he.running hu, (he.pinMem_eq_of_running hu).trans hmem⟩)
    (fun _ _ hu => hu) (fun _ _ hu => hu) hn ⟨hr, rfl⟩ h
  exact htable

/-! ## Before START -/

/-- Before START: the timer is not armed, and neither a reset nor a START word is to come. -/
structure BeforeStart (s : State) : Prop where
  unarmed : s.timerArmed = false
  noReset : s.noReset
  noStart : ∀ w d, .command w ∈ s.inbox → decode s.cfg w ≠ .ok (.start d)

/-- `t` has the wires, the phase, `running` and the armed durations of `s`. -/
structure StillAs (s t : State) : Prop where
  lines : t.lines = s.lines
  wireTrace : t.wireTrace = s.wireTrace
  phase : t.phase = s.phase
  running : t.running = s.running
  timerTrace : t.timerTrace = s.timerTrace

theorem StillAs.refl (s : State) : StillAs s s := ⟨rfl, rfl, rfl, rfl, rfl⟩

theorem StillAs.trans {u : State} (h : StillAs s t) (h' : StillAs t u) : StillAs s u :=
  ⟨h'.lines.trans h.lines, h'.wireTrace.trans h.wireTrace, h'.phase.trans h.phase,
    h'.running.trans h.running, h'.timerTrace.trans h.timerTrace⟩

theorem BeforeStart.rest {e : Event} {rest : List Event} (h : BeforeStart s)
    (hin : s.inbox = e :: rest) : BeforeStart { s with inbox := rest } :=
  ⟨h.unarmed, noReset_rest h.noReset hin,
    fun w d hm => h.noStart w d (hin ▸ List.mem_cons_of_mem e hm)⟩

/-- An operation other than START leaves an unarmed block as still as before. -/
theorem Effect.still (he : Effect s i t) (hi : ∀ d, i ≠ .start d) (h : BeforeStart s) :
    BeforeStart t ∧ StillAs s t := by
  have hexpiry : i ≠ .timerExpiry := by
    rintro rfl
    cases he with
    | expiry ht => exact nomatch ht.symm.trans h.unarmed
  obtain ⟨hcfg, hinbox⟩ := he.keeps
  obtain ⟨hphase, hlines, hwires⟩ := he.wires_eq hexpiry
  obtain ⟨harmed, -, htimer⟩ := he.timer_eq hi hexpiry
  refine ⟨⟨harmed.trans h.unarmed, he.noReset h.noReset, fun w d hm => ?_⟩,
    hlines, hwires, hphase, he.running_eq hi, htimer⟩
  exact hcfg ▸ h.noStart w d (hinbox ▸ hm)

theorem StepEffect.still (hstep : StepEffect s t) (h : BeforeStart s) :
    BeforeStart t ∧ StillAs s t := by
  cases hstep with
  | idle => exact ⟨h, .refl s⟩
  | quiet _ _ ht => exact nomatch ht.symm.trans h.unarmed
  | command w i rest _ hin hd he =>
    have hi : ∀ d, i ≠ .start d := by
      rintro d rfl
      exact h.noStart w d (hin ▸ List.mem_cons_self) hd
    obtain ⟨hbefore, hstill⟩ := he.still hi (h.rest hin)
    exact ⟨hbefore, { hstill with }⟩
  | undecodable _ _ _ hin =>
    exact ⟨{ h.rest hin with }, { StillAs.refl s with }⟩
  | reset _ hin => exact absurd (hin ▸ List.mem_cons_self) h.noReset

/-- Settles O31, by induction on the number of steps: before START no step moves anything. -/
theorem wiresStillUntilStart : Obligations.WiresStillUntilStart := by
  unfold Obligations.WiresStillUntilStart
  intro k s t hunarmed hreset hstart h
  have keep : ∀ u v, BeforeStart u ∧ StillAs s u → step u = .next v →
      BeforeStart v ∧ StillAs s v := by
    rintro u v ⟨hbefore, hstill⟩ hnext
    obtain ⟨-, hstep⟩ := effect_of_step hnext
    obtain ⟨hbefore', hstill'⟩ := hstep.still hbefore
    exact ⟨hbefore', hstill.trans hstill'⟩
  obtain ⟨hbefore, hstill⟩ :=
    runFrom_induction keep ⟨⟨hunarmed, hreset, hstart⟩, .refl s⟩ h
  exact ⟨hstill.lines, hstill.wireTrace, hstill.phase, hstill.running, hbefore.unarmed,
    hstill.timerTrace⟩

/-! ## Dark runs (R147) -/

/-- R147: with brightness 0 an expiry drives no OE high. -/
theorem oe_not_mem_expiryEvents (h : s.snap.b = 0) : .oe true ∉ expiryEvents s := by
  have hraise : raiseEvents (expiryPhase s) s.snap = [] := by
    rw [raiseEvents_eq, outputEnabled]
    simp [h]
  have hshift : .oe true ∉ shiftEvents s.cfg.bitOrder (phaseFrame (expiryPhase s) s.snap) := by
    unfold shiftEvents
    split
    · exact oe_not_mem_frameEvents _ _ _
    · exact List.not_mem_nil
  rw [expiryEvents, hraise, List.append_nil, List.mem_cons, not_or]
  exact ⟨nofun, hshift⟩

theorem Effect.oe_not_mem (he : Effect s i t) (hdark : i = .timerExpiry → s.snap.b = 0)
    (h : .oe true ∉ s.wireTrace) : .oe true ∉ t.wireTrace := by
  by_cases hi : i = .timerExpiry
  · subst hi
    cases he with
    | expiry =>
      rw [afterExpiry_wireTrace, List.mem_append, not_or]
      exact ⟨h, oe_not_mem_expiryEvents (hdark rfl)⟩
  · obtain ⟨-, -, hwires⟩ := he.wires_eq hi
    rwa [hwires]

theorem Effect.armed_of_expiry (he : Effect s .timerExpiry t) : s.timerArmed = true := by
  cases he with
  | expiry ht => exact ht

/-- A step from a state whose expiry, if it is next, reads brightness 0. -/
theorem StepEffect.oe_not_mem (hstep : StepEffect s t) (hdark : s.expiresNext → s.snap.b = 0)
    (h : .oe true ∉ s.wireTrace) : .oe true ∉ t.wireTrace := by
  cases hstep with
  | idle => exact h
  | quiet _ hin ht he => exact he.oe_not_mem (fun _ => hdark ⟨ht, .inl hin⟩) h
  | command w i rest _ hin hd he =>
    refine he.oe_not_mem (fun hi => ?_) h
    subst hi
    exact hdark ⟨he.armed_of_expiry, .inr ⟨w, rest, hin, hd⟩⟩
  | undecodable => exact h
  | reset => exact List.not_mem_nil

/-- Settles O34, by induction on the number of steps. -/
theorem darkRunNeverRaisesOutput : Obligations.DarkRunNeverRaisesOutput := by
  unfold Obligations.DarkRunNeverRaisesOutput
  intro k
  induction k with
  | zero =>
    intro s t _ h hrun
    cases hrun
    exact h
  | succ k ih =>
    intro s t hdark h hrun
    obtain ⟨u, hnext, hrest⟩ := runFrom_succ_next hrun
    obtain ⟨-, hstep⟩ := effect_of_step hnext
    refine ih u t (fun j v hj hv => hdark (j + 1) v (Nat.succ_lt_succ hj) ?_)
      (hstep.oe_not_mem (hdark 0 s (Nat.succ_pos k) rfl) h) hrest
    rw [runFrom_succ, hnext]
    exact hv

end Sys2Proof.Machine
end

section
/-! The phase cycle (spec/42_frame_fsm.md sections 3 and 4): which phases an expiry enters, the
durations it arms, and the cycles under one snapshot. -/

namespace Sys2Proof.Machine

variable {s t u v : State}

/-! ## One expiry (R144, R146) -/

/-- R144: ShowOld is entered only when it is long enough. -/
theorem showOld_le_of_enter {c : Phase} {p : TimingPlan} (h : enter c p = .showOld) :
    1000 ≤ p.showOld := by
  rw [enter, skipIntoNew] at h
  split at h
  next => exact nomatch h
  next hkept => exact Nat.not_lt.1 fun hlt => hkept ⟨h, decide_eq_true hlt⟩

/-- R144: the guard on ShowOld never leads into Blank. -/
theorem skipIntoNew_eq_blank {c : Phase} {p : TimingPlan} (h : skipIntoNew c p = .blank) :
    c = .blank := by
  rw [skipIntoNew] at h
  split at h
  next => exact nomatch h
  next => exact h

/-- R144: Blank is entered only from the phase before it, and only when it is long enough. -/
theorem blank_of_enter {c : Phase} {p : TimingPlan} (h : enter c p = .blank) :
    c = .blank ∧ 500 ≤ p.blankTime := by
  have hkept : skipIntoOld c p = .blank := skipIntoNew_eq_blank h
  rw [skipIntoOld] at hkept
  split at hkept
  next => exact nomatch hkept
  next hlong =>
    exact ⟨hkept, Nat.not_lt.1 fun hlt => hlong ⟨hkept, decide_eq_true hlt⟩⟩

/-- Settles O29: the guards on ShowOld and Blank leave only durations the floor does not raise. -/
theorem floorRaisesOnlyShowNew : Obligations.FloorRaisesOnlyShowNew := by
  unfold Obligations.FloorRaisesOnlyShowNew
  intro s t h
  obtain ⟨-, rfl⟩ := exec_timerExpiry_next h
  rw [afterExpiry_phase, afterExpiry_timerLoad, expiryTicks_eq]
  refine ⟨fun hp => ?old, fun hp => ?blank, fun hp => ?new⟩
  case old =>
    have hlong := showOld_le_of_enter hp
    exact ⟨hlong, by rw [hp, phaseTicks]; omega⟩
  case blank =>
    obtain ⟨-, hlong⟩ := blank_of_enter hp
    exact ⟨hlong, by rw [hp, phaseTicks]; omega⟩
  case new => rw [hp, phaseTicks]

/-! ## Two expiries with operations between them -/

/-- Operations that hold no expiry leave the phase. -/
theorem execAll_phase {ops : List Instr} (hops : .timerExpiry ∉ ops)
    (h : execAll ops t = .next u) : u.phase = t.phase := by
  induction ops generalizing t with
  | nil => cases h; rfl
  | cons i ops ih =>
    obtain ⟨hi, hrest⟩ := not_or.1 (mt List.mem_cons.2 hops)
    rw [execAll] at h
    split at h
    next w hw =>
      obtain ⟨hphase, -⟩ := (effect_of_exec hw).wires_eq (Ne.symm hi)
      exact (ih hrest h).trans hphase
    next => exact nomatch h
    next => exact nomatch h

/-- Settles O30: Blank is entered from ShowNew alone, and only an expiry leaves Blank. -/
theorem noTwoConsecutiveBlanks : Obligations.NoTwoConsecutiveBlanks := by
  unfold Obligations.NoTwoConsecutiveBlanks
  intro ops s t u v hops _ hblank hall hexpiry hagain
  obtain ⟨-, rfl⟩ := exec_timerExpiry_next hexpiry
  obtain ⟨hsucc, -⟩ := blank_of_enter hagain
  rw [execAll_phase hops hall, hblank] at hsucc
  exact nomatch hsucc

/-! ## The four cycles (R151) -/

/-- R151: with both guards idle the phases follow one another. -/
theorem expiryPhase_threePhase (hso : 1000 ≤ s.snap.plan.showOld)
    (hbt : 500 ≤ s.snap.plan.blankTime) : expiryPhase s = s.phase.succ := by
  rw [expiryPhase_eq, if_neg (Nat.not_lt.2 hso), if_neg (Nat.not_lt.2 hbt)]
  cases s.phase <;> rfl

/-- R151: without Blank, ShowOld and ShowNew alternate. -/
theorem expiryPhase_skipBlank (hso : 1000 ≤ s.snap.plan.showOld)
    (hbt : s.snap.plan.blankTime < 500) :
    expiryPhase s = if s.phase = .showOld then .showNew else .showOld := by
  rw [expiryPhase_eq, if_neg (Nat.not_lt.2 hso), if_pos hbt]
  cases s.phase <;> rfl

/-- R151: without ShowOld, ShowNew and Blank alternate. -/
theorem expiryPhase_skipOld (hso : s.snap.plan.showOld < 1000)
    (hbt : 500 ≤ s.snap.plan.blankTime) :
    expiryPhase s = if s.phase = .showNew then .blank else .showNew := by
  rw [expiryPhase_eq, if_pos hso, if_neg (Nat.not_lt.2 hbt)]
  cases s.phase <;> rfl

/-- R151: without either, every expiry enters ShowNew. -/
theorem expiryPhase_skipBoth (hso : s.snap.plan.showOld < 1000)
    (hbt : s.snap.plan.blankTime < 500) : expiryPhase s = .showNew := by
  rw [expiryPhase_eq, if_pos hso, if_pos hbt]
  cases s.phase <;> rfl

/-- Two successive expiries read one snapshot. -/
theorem twice_afterExpiry (h : exec .timerExpiry s = .next t) (h' : exec .timerExpiry t = .next u) :
    t = afterExpiry s ∧ u = afterExpiry (afterExpiry s) := by
  obtain ⟨-, rfl⟩ := exec_timerExpiry_next h
  obtain ⟨-, rfl⟩ := exec_timerExpiry_next h'
  exact ⟨rfl, rfl⟩

/-- Settles O32, by the cycle of each of R151's rows. -/
theorem steadyCycles : Obligations.SteadyCycles := by
  unfold Obligations.SteadyCycles
  intro s t u h h' so bt
  obtain ⟨rfl, rfl⟩ := twice_afterExpiry h h'
  simp only [afterExpiry_phase]
  refine ⟨fun hso hbt => ?three, fun hso hbt => ?skipBlank, fun hso hbt => ?skipOld,
    fun hso hbt => ⟨expiryPhase_skipBoth hso hbt, expiryPhase_skipBoth hso hbt⟩⟩
  case three =>
    rw [expiryPhase_threePhase (s := afterExpiry s) hso hbt, afterExpiry_phase]
    cases expiryPhase s <;> simp [Phase.succ]
  case skipBlank =>
    rw [expiryPhase_skipBlank (s := afterExpiry s) hso hbt, afterExpiry_phase,
      expiryPhase_skipBlank hso hbt]
    split <;> simp
  case skipOld =>
    rw [expiryPhase_skipOld (s := afterExpiry s) hso hbt, afterExpiry_phase,
      expiryPhase_skipOld hso hbt]
    split <;> simp

/-! ## The length of a cycle (R235) -/

/-- Settles O33: the three durations are those of the three phases, and the floor adds what ShowNew
lacks. -/
theorem threePhaseCycleLength : Obligations.ThreePhaseCycleLength := by
  unfold Obligations.ThreePhaseCycleLength
  intro s t u v hinv hso hbt h h' h''
  obtain ⟨rfl, rfl⟩ := twice_afterExpiry h h'
  obtain ⟨-, rfl⟩ := exec_timerExpiry_next h''
  have hsum := hinv.snap.sum
  simp only [afterExpiry_phase, afterExpiry_timerLoad, expiryTicks_eq]
  rw [expiryPhase_threePhase (s := afterExpiry (afterExpiry s)) hso hbt, afterExpiry_phase,
    expiryPhase_threePhase (s := afterExpiry s) hso hbt, afterExpiry_phase,
    expiryPhase_threePhase hso hbt]
  cases s.phase <;> simp only [Phase.succ, phaseTicks, afterExpiry_snap, true_and] <;> omega

/-- Settles O50: the phases left out lack their fields. -/
theorem skippedPhaseCycleLength : Obligations.SkippedPhaseCycleLength := by
  unfold Obligations.SkippedPhaseCycleLength
  intro s t u hinv h h' so bt lack
  obtain ⟨rfl, rfl⟩ := twice_afterExpiry h h'
  have hsum := hinv.snap.sum
  simp only [afterExpiry_phase, afterExpiry_timerLoad, expiryTicks_eq]
  refine ⟨fun hso hbt hp => ?skipBlank, fun hso hbt hp => ?skipOld, fun hso hbt hp => ?skipBoth⟩
  case skipBlank =>
    rw [expiryPhase_skipBlank (s := afterExpiry s) hso hbt, afterExpiry_phase,
      expiryPhase_skipBlank hso hbt]
    cases hs : s.phase with
    | blank => exact absurd hs hp
    | showOld =>
      refine ⟨rfl, ?_⟩
      change max s.snap.plan.showNew 500 + max s.snap.plan.showOld 500 + bt = _
      omega
    | showNew =>
      refine ⟨rfl, ?_⟩
      change max s.snap.plan.showOld 500 + max s.snap.plan.showNew 500 + bt = _
      omega
  case skipOld =>
    rw [expiryPhase_skipOld (s := afterExpiry s) hso hbt, afterExpiry_phase,
      expiryPhase_skipOld hso hbt]
    cases hs : s.phase with
    | showOld => exact absurd hs hp
    | showNew =>
      refine ⟨rfl, ?_⟩
      change max s.snap.plan.blankTime 500 + max s.snap.plan.showNew 500 + so = _
      omega
    | blank =>
      refine ⟨rfl, ?_⟩
      change max s.snap.plan.showNew 500 + max s.snap.plan.blankTime 500 + so = _
      omega
  case skipBoth =>
    rw [expiryPhase_skipBoth hso hbt, phaseTicks]
    exact ⟨rfl, by omega⟩

end Sys2Proof.Machine
end

section
/-! PLAN's laws (spec/41_timing_converter.md R126), the clamps of R89, and what they give for
SET_DIGITS: idempotence and the crossfade sweep. -/

namespace Sys2Proof.Machine

/-! ## PLAN (R126) -/

/-- R123: the old frame's share of the on-time at a step of a crossfade. -/
theorem plan_showOld {c : Config} (b : Nat) {s : Nat} (hs : 1 ≤ s) :
    (plan c b s).showOld = clampVisible c (pwmOf c b) (rawOld c (pwmOf c b) s) := by
  rw [plan_step_pos b (Nat.one_le_iff_ne_zero.1 hs)]

/-- R123: the new frame has the rest of the on-time. -/
theorem plan_showNew {c : Config} (b : Nat) {s : Nat} (hs : 1 ≤ s) :
    (plan c b s).showNew = pwmOf c b - (plan c b s).showOld := by
  rw [plan_step_pos b (Nat.one_le_iff_ne_zero.1 hs)]

theorem plan_showOld_le {c : Config} (b : Nat) {s : Nat} (hs : 1 ≤ s) :
    (plan c b s).showOld ≤ pwmOf c b :=
  (plan_showOld b hs).trans_le (clampVisible_le (rawOld_le _ _))

/-- R126 law 2: a crossfade divides the whole on-time. -/
theorem plan_onTime {c : Config} (b : Nat) {s : Nat} (hs : 1 ≤ s) :
    (plan c b s).showOld + (plan c b s).showNew = pwmOf c b := by
  rw [plan_showNew b hs, Nat.add_sub_cancel' (plan_showOld_le b hs)]

/-- Settles O20, by R126's laws 1 and 2; without a crossfade each frame has half the on-time. -/
theorem planSumsToRefreshPeriod : Obligations.PlanSumsToRefreshPeriod := by
  unfold Obligations.PlanSumsToRefreshPeriod
  intro c b s hc hb _ p pwm
  refine ⟨plan_sum_of_le (pwmOf_le hc hb) s, plan_onTime b, ?_⟩
  rintro rfl
  have hp : p = _ := plan_step_zero b
  have hpwm : pwm = pwmOf c b := rfl
  rw [hp, hpwm]
  exact ⟨rfl, by dsimp only; omega⟩

/-- R126 law 3, for ShowOld. -/
theorem plan_showOld_antitone {c : Config} (b : Nat) {s s' : Nat} (hs : 1 ≤ s) (h : s ≤ s') :
    (plan c b s').showOld ≤ (plan c b s).showOld := by
  rw [plan_showOld b hs, plan_showOld b (hs.trans h)]
  exact clampVisible_mono (rawOld_antitone _ h) (rawOld_le _ _)

/-- R126 law 3, for ShowNew. -/
theorem plan_showNew_mono {c : Config} (b : Nat) {s s' : Nat} (hs : 1 ≤ s) (h : s ≤ s') :
    (plan c b s).showNew ≤ (plan c b s').showNew := by
  rw [plan_showNew b hs, plan_showNew b (hs.trans h)]
  exact Nat.sub_le_sub_left (plan_showOld_antitone b hs h) _

/-- R126 law 4: at the last step nothing visible is left of the old frame. -/
theorem plan_showOld_last {c : Config} (b : Nat) (hn : 1 ≤ c.animN) (hv : 1 ≤ c.tVis) :
    (plan c b c.animN).showOld = 0 := by
  have hraw : rawOld c (pwmOf c b) c.animN = 0 := by simp [rawOld]
  rw [plan_showOld b hn, hraw]
  exact if_pos hv

/-- Settles O21, by R126's laws 3 and 4. -/
theorem planMonotoneInStep : Obligations.PlanMonotoneInStep := by
  unfold Obligations.PlanMonotoneInStep
  intro c b s s' hc hs h _
  refine ⟨plan_showOld_antitone b hs h, plan_showNew_mono b hs h, fun hv => ?_⟩
  obtain ⟨-, -, -, -, hn, -⟩ := wf_iff.1 hc
  have hold := plan_showOld_last (c := c) b hn hv
  refine ⟨hold, ?_⟩
  rw [plan_showNew b hn, hold, Nat.sub_zero, pwmOf]

/-! ## Operands outside the source's range (R89) -/

/-- SET_DIGITS reads its animation steps through the clamp alone. -/
theorem exec_setDigits_congr {v : Six Digit} {dp : Five Bool} {a a' : Six AnimStep} {s : State}
    (h : a.map (clampAnim s.cfg) = a'.map (clampAnim s.cfg)) :
    exec (.setDigits v dp a) s = exec (.setDigits v dp a') s := by
  simp only [exec, execSetDigits, h]

theorem clampAnim_eq (c : Config) (x : AnimStep) :
    (if c.animN < x.toNat then BitVec.ofNat 5 c.animN else x) = clampAnim c x := by
  rw [clampAnim]
  split
  next h => rw [if_neg (Nat.not_le_of_lt h)]
  next h => rw [if_pos (Nat.not_lt.1 h)]

theorem clampAnim_idem (c : Config) (x : AnimStep) :
    clampAnim c (clampAnim c x) = clampAnim c x :=
  BitVec.eq_of_toNat_eq (by simp only [clampAnim_toNat, Nat.min_assoc, Nat.min_self])

/-- R129: a brightness above the maximum is clamped to it. -/
theorem bclamp_of_le {c : Config} {x : Nat} (h : c.maxBrightness ≤ x) :
    bclamp c x = c.maxBrightness := Nat.min_eq_right h

/-- R103: a digit of 10 or more reads no pin, as the sentinel 15 does. -/
theorem digitPins_blank (m : List Host.Cell) (row : Nat) (d : Digit) :
    digitPins m row (if 10 ≤ d.toNat then 15 else d) = digitPins m row d := by
  split
  next h =>
    have hblank : isBlank d = true := decide_eq_true h
    rw [digitPins, digitPins, hblank]
    rfl
  next => rfl

/-- Settles O24: each operand is read through its clamp, and the clamp of a clamped value is that
value. -/
theorem outOfRangeOperandsActClamped : Obligations.OutOfRangeOperandsActClamped := by
  unfold Obligations.OutOfRangeOperandsActClamped
  intro s _
  refine ⟨fun v dp a => ?steps, fun pct h => ?brightness, fun v dp => ?digits⟩
  case steps =>
    simp only [clampAnim_eq]
    refine exec_setDigits_congr (Six.ext_get fun i => ?_)
    simp only [Six.get_map, clampAnim_idem]
  case brightness =>
    have hfits : (BitVec.ofNat 8 s.cfg.maxBrightness).toNat = s.cfg.maxBrightness := by
      rw [BitVec.toNat_ofNat, Nat.mod_eq_of_lt (h.trans pct.isLt)]
    rw [exec_setBrightness, exec_setBrightness, bclamp_of_le h.le, bclamp_of_le hfits.ge]
  case digits =>
    simp only [encodeFrame, litPins, Six.indexed, Six.map, List.flatMap_cons, digitPins_blank]

/-! ## SET_DIGITS twice (R168) -/

/-- What SET_DIGITS leaves in the registers it compares with, whether or not it changed anything. -/
theorem setDigits_leaves {v : Six Digit} {dp : Five Bool} {a : Six AnimStep} {s t : State}
    (h : exec (.setDigits v dp a) s = .next t) :
    t.lastVal = v ∧ t.lastDp = dp ∧ t.lastAnim = a.map (clampAnim s.cfg) ∧
      t.cfg = s.cfg ∧ t.bright = s.bright := by
  cases effect_of_exec h with
  | same _ _ _ hsame =>
    obtain ⟨hv, hdp, ha⟩ := changed_eq_false_iff.1 hsame
    exact ⟨hv.symm, hdp.symm, Six.ext_get fun i => (BitVec.eq_of_toNat_eq (ha i)).symm, rfl, rfl⟩
  | digits => exact ⟨rfl, rfl, rfl, rfl, rfl⟩

/-- Settles O36: the first call leaves what the second compares with, so the second is the no-op. -/
theorem setDigitsIdempotent : Obligations.SetDigitsIdempotent := by
  unfold Obligations.SetDigitsIdempotent
  intro s t v dp a h
  obtain ⟨hv, hdp, ha, hcfg, -⟩ := setDigits_leaves h
  refine ⟨exec_setDigits_same (changed_eq_false_iff.2 ⟨hv.symm, hdp.symm, fun i => ?_⟩), ?_⟩
  · rw [ha, hcfg]
  · cases effect_of_exec h with
    | same => exact Nat.le_succ _
    | digits => exact le_rfl

/-! ## The crossfade sweep (R169) -/

/-- R164: with one step at every position the global step is that step, clamped. -/
theorem globalStep_fill (c : Config) (x : AnimStep) (h : x.toNat ≤ c.animN) :
    (globalStep ((Six.fill x).map (clampAnim c))).toNat = x.toNat := by
  have hclamp : clampAnim c x = x := if_pos h
  simp [globalStep_toNat, Six.map, Six.fill, hclamp]

/-- R40, R164: the plan in force after SET_DIGITS with one step at every position. -/
theorem plan_of_setDigits_fill {v : Six Digit} {dp : Five Bool} {x : AnimStep} {s t : State}
    (hinv : BlockInv s) (hx : x.toNat ≤ s.cfg.animN)
    (h : exec (.setDigits v dp (.fill x)) s = .next t) :
    t.snap.plan = plan s.cfg s.bright x.toNat := by
  obtain ⟨-, -, ha, hcfg, hbright⟩ := setDigits_leaves h
  have hinv' := (effect_of_exec h).blockInv hinv
  rw [hinv'.snap.planned, hinv'.anim.global, ha, hcfg, hbright, globalStep_fill s.cfg x hx]

/-- Settles O37: both snapshots hold the plan of one brightness, at the two steps. -/
theorem crossfadeSweep : Obligations.CrossfadeSweep := by
  unfold Obligations.CrossfadeSweep
  intro s t u v dp x y hinv hx hxy hy h h'
  obtain ⟨-, -, -, hcfg, hbright⟩ := setDigits_leaves h
  have hinv' := (effect_of_exec h).blockInv hinv
  have hplan := plan_of_setDigits_fill hinv (hxy.trans hy) h
  have hplan' := plan_of_setDigits_fill hinv' (hcfg.symm ▸ hy) h'
  rw [hcfg, hbright] at hplan'
  rw [hplan, hplan', plan_onTime _ hx, plan_onTime _ (hx.trans hxy)]
  exact ⟨plan_showOld_antitone _ hx hxy, plan_showNew_mono _ hx hxy, rfl⟩

end Sys2Proof.Machine
end

section
/-! One bit per digit (spec/95_test_vectors.md S1): a list of different pins sets as many bits of a
chip's word as it has pins on that chip. -/

namespace Sys2Proof.Machine

/-- Two conditions that never hold together are counted apart. -/
theorem countP_or_of_disjoint {α : Type} {p q : α → Bool} {l : List α}
    (h : ∀ a ∈ l, p a = true → q a = false) :
    l.countP (fun a => p a || q a) = l.countP p + l.countP q := by
  induction l with
  | nil => rfl
  | cons a l ih =>
    have ha := h a List.mem_cons_self
    rw [List.countP_cons, List.countP_cons, List.countP_cons,
      ih fun b hb => h b (List.mem_cons_of_mem a hb)]
    cases hp : p a
    · simp only [Bool.false_or, Bool.false_eq_true, if_false]; omega
    · simp only [ha hp, Bool.true_or, Bool.false_eq_true, if_false, if_true]; omega

/-- Whether a pin names a bit of the chip. -/
def onChip (c : Chip) (p : Pin) : Bool := (pinToBit p).any fun b => b.1 = c

theorem onChip_of_eq_some {p : Pin} {c c' : Chip} {k : Nat} (h : pinToBit p = some (c', k)) :
    onChip c p = decide (c' = c) := by
  rw [onChip, h]
  rfl

/-- R63: a pin names at most one bit of a chip. -/
theorem countP_pinToBit (p : Pin) (c : Chip) :
    (List.range wordBits).countP (fun j => decide (pinToBit p = some (c, j))) =
      if onChip c p then 1 else 0 := by
  cases hp : pinToBit p with
  | none => simp [onChip, hp]
  | some b =>
    obtain ⟨c', k⟩ := b
    obtain ⟨hk, -⟩ := pinToBit_eq_some.1 hp
    rw [onChip_of_eq_some hp]
    by_cases hc : c' = c
    · subst hc
      have hone : (List.range wordBits).countP (· == k) = 1 :=
        List.count_eq_one_of_mem List.nodup_range (List.mem_range.2 hk)
      rw [decide_eq_true rfl, if_pos rfl, ← hone]
      exact List.countP_congr fun j _ => by simpa using eq_comm
    · simp [hc]

/-- R101: SETPIN of a pin whose bit is free sets one more bit on that pin's chip. -/
theorem popcount_setPin (f : BitFrame) (p : Pin) (c : Chip)
    (hfree : ∀ k, pinToBit p = some (c, k) → (f.word c).getLsbD k = false) :
    popcount ((setPin f p).word c) = popcount (f.word c) + if onChip c p then 1 else 0 := by
  rw [← countP_pinToBit, popcount, popcount, ← countP_or_of_disjoint]
  · refine List.countP_congr fun j hj => ?_
    rw [setPin_getLsbD f p c (List.mem_range.1 hj)]
  · intro j _ hset
    by_contra hpin
    exact nomatch hset.symm.trans (hfree j (of_decide_eq_true (eq_true_of_ne_false hpin)))

/-- R101, R102: different pins whose bits are free set one bit each. -/
theorem popcount_foldl_setPin (ps : List Pin) (f : BitFrame) (c : Chip) (hnd : ps.Nodup)
    (hfree : ∀ p ∈ ps, ∀ k, pinToBit p = some (c, k) → (f.word c).getLsbD k = false) :
    popcount ((ps.foldl setPin f).word c) = popcount (f.word c) + ps.countP (onChip c) := by
  induction ps generalizing f with
  | nil => rfl
  | cons p ps ih =>
    obtain ⟨hp, hps⟩ := List.nodup_cons.1 hnd
    have hstill : ∀ q ∈ ps, ∀ k, pinToBit q = some (c, k) →
        ((setPin f p).word c).getLsbD k = false := by
      intro q hq k hk
      have hpk : pinToBit p ≠ some (c, k) := fun h => hp (pinToBit_inj h hk ▸ hq)
      rw [setPin_getLsbD f p c (pinToBit_eq_some.1 hk).1,
        hfree q (List.mem_cons_of_mem p hq) k hk, decide_eq_false hpk]
      rfl
    rw [List.foldl_cons, ih _ hps hstill, popcount_setPin f p c (hfree p List.mem_cons_self),
      List.countP_cons]
    omega

/-- A pin that names a bit is on one of the two chips. -/
theorem countP_onChip_add (ps : List Pin) (h : ∀ p ∈ ps, pinToBit p ≠ none) :
    ps.countP (onChip .chip0) + ps.countP (onChip .chip1) = ps.length := by
  rw [← countP_or_of_disjoint, List.countP_eq_length]
  · intro p hp
    obtain ⟨⟨c, k⟩, hk⟩ := Option.ne_none_iff_exists'.1 (h p hp)
    rw [onChip_of_eq_some hk, onChip_of_eq_some hk]
    cases c <;> rfl
  · intro p hp h0
    obtain ⟨⟨c, k⟩, hk⟩ := Option.ne_none_iff_exists'.1 (h p hp)
    rw [onChip_of_eq_some hk] at h0 ⊢
    cases c
    · rfl
    · exact nomatch h0

/-- R101, R102: ENCODE sets one bit for each lit element, when the pins differ and name bits. -/
theorem popcount_encodeFrame {m : List Host.Cell} {dig : Six Digit} {dp : Five Bool}
    (hnd : (litPins m dig dp).Nodup) (hbit : ∀ p ∈ litPins m dig dp, pinToBit p ≠ none) :
    popcount (encodeFrame m dig dp).chip0 + popcount (encodeFrame m dig dp).chip1 =
      (litPins m dig dp).length := by
  have count (c : Chip) : popcount ((encodeFrame m dig dp).word c) =
      (litPins m dig dp).countP (onChip c) := by
    have hdark : popcount (BitFrame.dark.word c) = 0 := by cases c <;> rfl
    rw [encodeFrame, popcount_foldl_setPin _ _ _ hnd, hdark, Nat.zero_add]
    intro _ _ k _
    cases c <;> exact BitVec.getLsbD_zero
  rw [← countP_onChip_add _ hbit, ← count .chip0, ← count .chip1]
  rfl

/-! ## The pins of the digits alone -/

theorem flatMap_ite_singleton {α β : Type} (p : α → Bool) (g : α → β) (l : List α) :
    l.flatMap (fun a => if p a then [g a] else []) = (l.filter p).map g := by
  induction l with
  | nil => rfl
  | cons a l ih => cases h : p a <;> simp [List.flatMap_cons, h, ih]

/-- Whether position `i` shows a digit (R103). -/
def digitLit (dig : Six Digit) (i : Fin 6) : Bool := decide ((dig.get i).toNat ≤ 9)

/-- The pin a position's digit reads. -/
def digitPin (m : List Host.Cell) (dig : Six Digit) (i : Fin 6) : Pin :=
  pinRead m i.val (dig.get i).toNat

theorem digitPins_eq (m : List Host.Cell) (dig : Six Digit) (i : Fin 6) :
    digitPins m i.val (dig.get i) = if digitLit dig i then [digitPin m dig i] else [] := by
  have hlit : isBlank (dig.get i) = !digitLit dig i := by
    rw [isBlank, digitLit, ← decide_not]
    exact decide_eq_decide.2 Nat.not_le.symm
  rw [digitPins, hlit]
  cases digitLit dig i <;> rfl

/-- R101, R103: without decimal points, one pin for each position that is not blank. -/
theorem litPins_noPoints (m : List Host.Cell) (dig : Six Digit) :
    litPins m dig (.fill false) =
      ((List.finRange 6).filter (digitLit dig)).map (digitPin m dig) := by
  have hdigits : litPins m dig (.fill false) =
      (List.finRange 6).flatMap fun i => digitPins m i.val (dig.get i) := by
    simp [litPins, Six.indexed, Five.indexed, Five.fill, dpPins, Six.get, List.finRange_succ]
  rw [hdigits, ← flatMap_ite_singleton]
  simp only [digitPins_eq]

/-- Settles O16: the lit digits' pins differ and each names a bit, so each sets one bit. -/
theorem oneBitPerNonBlankDigit : Obligations.OneBitPerNonBlankDigit := by
  unfold Obligations.OneBitPerNonBlankDigit
  intro m dig hbit hdiff
  have lit {i : Fin 6} (h : i ∈ (List.finRange 6).filter (digitLit dig)) :
      (dig.get i).toNat ≤ 9 := of_decide_eq_true (List.mem_filter.1 h).2
  rw [popcount_encodeFrame]
  · rw [litPins_noPoints, List.length_map, ← List.countP_eq_length_filter]
    rfl
  · rw [litPins_noPoints]
    refine List.Nodup.map_on (fun i hi j hj hpin => ?_) ((List.nodup_finRange 6).filter _)
    by_contra hij
    exact hdiff i j _ _ hij (lit hi) (lit hj) hpin
  · rw [litPins_noPoints]
    intro p hp
    obtain ⟨i, hi, rfl⟩ := List.mem_map.1 hp
    exact hbit i _ (lit hi)

end Sys2Proof.Machine
end

section
/-! Serial Link and observer (spec/44_serial_link.md sections 2 and 3): the events of an expiry in
number, what they leave in the driver chain, and the outputs it lights. -/

namespace Sys2Proof.Machine

variable {s t u : State}

/-! ## Counts (R184) -/

theorem shiftEvents_length (o : BitOrder) (ph : Phase) (S : Snapshot) :
    (shiftEvents o (phaseFrame ph S)).length = if ph = .blank then 0 else 322 := by
  cases ph with
  | showOld => exact frameEvents_length o S.old
  | showNew => exact frameEvents_length o S.new
  | blank => rfl

theorem raiseEvents_length (ph : Phase) (S : Snapshot) :
    (raiseEvents ph S).length = if ph ≠ .blank ∧ S.b ≠ 0 then 1 else 0 := by
  rw [raiseEvents_eq, outputEnabled]
  by_cases h : ph ≠ .blank ∧ S.b ≠ 0
  · rw [decide_eq_true h, if_pos h]
    rfl
  · rw [decide_eq_false h, if_neg h]
    rfl

/-- R148, R184: the events of an expiry, by the phase it enters and the brightness. -/
theorem expiryEvents_length (s : State) :
    (expiryEvents s).length =
      if expiryPhase s = .blank then 1 else if s.snap.b = 0 then 323 else 324 := by
  rw [expiryEvents, List.length_cons, List.length_append, shiftEvents_length, raiseEvents_length]
  by_cases hp : expiryPhase s = .blank
  · simp [hp]
  · by_cases hb : s.snap.b = 0 <;> simp [hp, hb]

/-- Settles O39, by the counts of a word, of a frame and of an expiry's events. -/
theorem serialEventCounts : Obligations.SerialEventCounts := by
  unfold Obligations.SerialEventCounts
  refine ⟨fallingEdges_wordEvents,
    fun o f l => ⟨rfl, frameEvents_length o f, fallingEdges_frameEvents o f l⟩, fun s t h => ?_⟩
  obtain ⟨-, rfl⟩ := exec_timerExpiry_next h
  rw [afterExpiry_wireTrace, List.length_append, expiryEvents_length, afterExpiry_phase]

/-! ## The observer along an expiry (R188) -/

/-- R188: OE driven low blanks what is shown and leaves the chain. -/
theorem see_oe_low (o : Observer) :
    o.see (.oe false) = { o with lines := { o.lines with oe := false }, shown := 0 } := rfl

/-- R188: OE driven high from low shows the chain. -/
theorem see_oe_high {o : Observer} (h : o.lines.oe = false) :
    (o.see (.oe true)).chain = o.chain ∧ (o.see (.oe true)).shown = o.chain := by
  simp [Observer.see, h]

theorem watch_lines (es : List WireEvent) :
    (Observer.watch es).lines = es.foldl Lines.drive .reset :=
  foldl_see_lines es .reset

/-- R143, R188: the observer after OE is driven low and a frame is shifted. -/
def shiftedFrame (s : State) (f : BitFrame) : Observer :=
  (frameEvents s.cfg.bitOrder f).foldl Observer.see
    ((Observer.watch s.wireTrace).see (.oe false))

theorem shiftedFrame_oe (s : State) (f : BitFrame) : (shiftedFrame s f).lines.oe = false := by
  rw [shiftedFrame, foldl_see_lines, drive_frameEvents, see_oe_low]

theorem shiftedFrame_shown (s : State) (f : BitFrame) : (shiftedFrame s f).shown = 0 := by
  rw [shiftedFrame, (see_frameEvents _ f _).1, see_oe_low]

/-- R147, R188: after an expiry that shows a frame the observer has it in the chain, and shows it
unless the brightness is 0. -/
theorem watch_afterExpiry_show {f : BitFrame}
    (hf : phaseFrame (expiryPhase s) s.snap = some f) :
    (Observer.watch (afterExpiry s).wireTrace).chain = (shiftedFrame s f).chain ∧
    (Observer.watch (afterExpiry s).wireTrace).shown =
      if s.snap.b = 0 then 0 else (shiftedFrame s f).chain := by
  have hp : expiryPhase s ≠ .blank := by
    intro hblank
    rw [hblank] at hf
    exact nomatch hf
  have hwatch : Observer.watch (afterExpiry s).wireTrace =
      (raiseEvents (expiryPhase s) s.snap).foldl Observer.see (shiftedFrame s f) := by
    rw [afterExpiry_wireTrace, watch_append, expiryEvents, hf, List.foldl_cons,
      List.foldl_append]
    rfl
  rw [hwatch, raiseEvents_eq, outputEnabled]
  by_cases hb : s.snap.b = 0
  · have hdark : decide (expiryPhase s ≠ .blank ∧ s.snap.b ≠ 0) = false :=
      decide_eq_false fun h => h.2 hb
    rw [hdark, if_pos hb, if_neg Bool.false_ne_true, List.foldl_nil]
    exact ⟨rfl, shiftedFrame_shown s f⟩
  · rw [decide_eq_true ⟨hp, hb⟩, if_neg hb, if_pos rfl, List.foldl_cons, List.foldl_nil]
    exact see_oe_high (shiftedFrame_oe s f)

/-- R149, R188: after an expiry into Blank nothing is shown and the chain is as before. -/
theorem watch_afterExpiry_blank (hp : expiryPhase s = .blank) :
    Observer.watch (afterExpiry s).wireTrace = (Observer.watch s.wireTrace).see (.oe false) := by
  rw [afterExpiry_wireTrace, watch_append, expiryEvents, raiseEvents, hp]
  rfl

/-- R188: the chain's bits after a frame, chip 0 low and chip 1 high. -/
theorem shiftedFrame_getLsbD (s : State) (f : BitFrame) {k : Nat} (hk : k < 32) :
    (shiftedFrame s f).chain.getLsbD k = f.chip0.getLsbD (bitIndex s.cfg.bitOrder (31 - k)) ∧
    (shiftedFrame s f).chain.getLsbD (32 + k) =
      f.chip1.getLsbD (bitIndex s.cfg.bitOrder (31 - k)) := by
  obtain ⟨-, hbits⟩ := see_frameEvents s.cfg.bitOrder f
    ((Observer.watch s.wireTrace).see (.oe false))
  exact hbits k hk

/-- The two words of a frame side by side, chip 0 low. -/
theorem append_getLsbD (f : BitFrame) {k : Nat} (hk : k < 32) :
    (f.chip1 ++ f.chip0).getLsbD k = f.chip0.getLsbD k ∧
    (f.chip1 ++ f.chip0).getLsbD (32 + k) = f.chip1.getLsbD k := by
  rw [BitVec.getLsbD_append, BitVec.getLsbD_append, if_pos hk,
    if_neg (Nat.not_lt.2 (Nat.le_add_right wordBits k)), Nat.add_sub_cancel_left]
  exact ⟨rfl, rfl⟩

/-- R189: with MSB_FIRST the chain holds the chip-1 word above the chip-0 word. -/
theorem shiftedFrame_chain_msbFirst {f : BitFrame} (h : s.cfg.bitOrder = .msbFirst) :
    (shiftedFrame s f).chain = f.chip1 ++ f.chip0 := by
  have half {k : Nat} (hk : k < 32) :
      (shiftedFrame s f).chain.getLsbD k = (f.chip1 ++ f.chip0).getLsbD k ∧
      (shiftedFrame s f).chain.getLsbD (32 + k) = (f.chip1 ++ f.chip0).getLsbD (32 + k) := by
    have hindex : bitIndex .msbFirst (31 - k) = k := by rw [bitIndex_msbFirst]; omega
    obtain ⟨h0, h1⟩ := shiftedFrame_getLsbD s f hk
    obtain ⟨h0', h1'⟩ := append_getLsbD f hk
    rw [h0, h1, h0', h1', h, hindex]
    exact ⟨rfl, rfl⟩
  apply BitVec.eq_of_getLsbD_eq
  intro j hj
  by_cases hlow : j < 32
  · exact (half hlow).1
  · have hj' : j < 64 := hj
    have hhigh := (half (k := j - 32) (by omega)).2
    rwa [Nat.add_sub_cancel' (Nat.not_lt.1 hlow)] at hhigh

/-- R189: with LSB_FIRST each word is bit-reversed. -/
theorem shiftedFrame_chain_lsbFirst {f : BitFrame} (h : s.cfg.bitOrder = .lsbFirst) {k : Nat}
    (hk : k < 32) :
    (shiftedFrame s f).chain.getLsbD k = f.chip0.getLsbD (31 - k) ∧
    (shiftedFrame s f).chain.getLsbD (32 + k) = f.chip1.getLsbD (31 - k) := by
  have hbits := shiftedFrame_getLsbD s f hk
  rwa [h] at hbits

/-- Settles O40, for a phase that shows a frame and for Blank. -/
theorem observerReceivesFrame : Obligations.ObserverReceivesFrame := by
  unfold Obligations.ObserverReceivesFrame
  intro s t h
  obtain ⟨-, rfl⟩ := exec_timerExpiry_next h
  refine ⟨fun f hf => ?_, fun hp => ?_⟩
  · have hframe : phaseFrame (expiryPhase s) s.snap = some f := by
      obtain ⟨hp, rfl⟩ | ⟨hp, rfl⟩ := hf <;> rw [afterExpiry_phase] at hp <;> rw [hp, phaseFrame]
    obtain ⟨hchain, hshown⟩ := watch_afterExpiry_show hframe
    rw [hshown, hchain]
    exact ⟨shiftedFrame_chain_msbFirst, fun ho k => shiftedFrame_chain_lsbFirst ho, rfl⟩
  · rw [watch_afterExpiry_blank hp]
    exact ⟨rfl, rfl⟩

/-! ## The outputs lit (R188) -/

/-- R63, R64: the pins that name a bit. -/
theorem exists_pinToBit_eq_some {p : Pin} :
    (∃ c k, pinToBit p = some (c, k)) ↔
      1 ≤ p.toNat ∧ p.toNat ≤ 32 ∨ 101 ≤ p.toNat ∧ p.toNat ≤ 132 := by
  constructor
  · rintro ⟨c, k, h⟩
    obtain ⟨hk, hp⟩ := pinToBit_eq_some.1 h
    cases c <;> simp only at hp <;> omega
  · obtain ⟨hlow, hhigh, -⟩ := pinToBitMap p
    rintro (⟨h, h'⟩ | ⟨h, h'⟩)
    · exact ⟨_, _, hlow h h'⟩
    · exact ⟨_, _, hhigh h h'⟩

/-- R188: an output is lit when its bit of the shown frame is set. -/
theorem lit_iff {o : Observer} {f : BitFrame} (h : o.shown = f.chip1 ++ f.chip0) {p : Pin} :
    o.lit p = true ↔ ∃ c k, pinToBit p = some (c, k) ∧ (f.word c).getLsbD k = true := by
  cases hp : pinToBit p with
  | none => simp [Observer.lit, hp]
  | some b =>
    obtain ⟨c, k⟩ := b
    obtain ⟨hlow, hhigh⟩ := append_getLsbD f (pinToBit_eq_some.1 hp).1
    have hlit : o.lit p = (f.word c).getLsbD k := by
      rw [Observer.lit, hp, h]
      cases c
      · exact hlow
      · exact hhigh
    simp [hlit]

/-- R101, R105: the outputs lit by an encoded frame are the pins of the lit elements that name a
bit. -/
theorem lit_encodeFrame {o : Observer} {m : List Host.Cell} {dig : Six Digit} {dp : Five Bool}
    (h : o.shown = (encodeFrame m dig dp).chip1 ++ (encodeFrame m dig dp).chip0) (p : Pin) :
    o.lit p = true ↔ (∃ c k, pinToBit p = some (c, k)) ∧ p ∈ litPins m dig dp := by
  rw [lit_iff h]
  constructor
  · rintro ⟨c, k, hp, hset⟩
    obtain ⟨q, hq, hqk⟩ := (encodeFrame_getLsbD m dig dp c (pinToBit_eq_some.1 hp).1).1 hset
    exact ⟨⟨c, k, hp⟩, pinToBit_inj hqk hp ▸ hq⟩
  · rintro ⟨⟨c, k, hp⟩, hmem⟩
    exact ⟨c, k, hp, (encodeFrame_getLsbD m dig dp c (pinToBit_eq_some.1 hp).1).2 ⟨p, hmem, hp⟩⟩

/-- R189: after an expiry into ShowNew the new frame is shown, the chip-1 word high. -/
theorem shown_afterExpiry_showNew (hp : expiryPhase s = .showNew)
    (ho : s.cfg.bitOrder = .msbFirst) (hb : s.snap.b ≠ 0) :
    (Observer.watch (afterExpiry s).wireTrace).shown = s.snap.new.chip1 ++ s.snap.new.chip0 := by
  obtain ⟨-, hshown⟩ := watch_afterExpiry_show (f := s.snap.new) (by rw [hp, phaseFrame])
  rw [hshown, if_neg hb, shiftedFrame_chain_msbFirst ho]

/-- Settles O41: SET_DIGITS publishes the encoded digits, the expiry shifts them and shows the
chain, and the observer lights the pins of the lit elements. -/
theorem displayShowsRequestedDigits : Obligations.DisplayShowsRequestedDigits := by
  unfold Obligations.DisplayShowsRequestedDigits
  intro s t u v dp a horder hbright hset hpub hexpiry hphase p
  obtain ⟨-, rfl⟩ := exec_timerExpiry_next hexpiry
  cases effect_of_exec hset with
  | same => exact absurd rfl hpub
  | digits =>
    have hshown := shown_afterExpiry_showNew hphase horder hbright
    rw [lit_encodeFrame (m := s.pinMem) (dig := v) (dp := dp) hshown, exists_pinToBit_eq_some,
      mem_litPins]

end Sys2Proof.Machine
end
